-- ==== Sys2Proof/Word.lean ====
section
/-! DEFINITION. The two word widths of the CORE and the numbering of its registers.
spec/00_scope.md R4: the data width is 8 bits and an instruction word is 16 bits. -/

namespace Sys2Proof

/-- A byte: a `V` register, a timer, one byte of memory (R4, R20, R30, R50). -/
abbrev Byte := BitVec 8

/-- A 16-bit word: an instruction, `I`, `PC`, a stack entry (R4, R24, R25, R28). -/
abbrev Word := BitVec 16

/-- A register number: the 16 registers `V0` to `VF` (R20). -/
abbrev Reg := Fin 16

/-- The register `VF`, the carry, borrow and collision flag (R21). -/
abbrev VF : Reg := 15

end Sys2Proof
end

