-- ==== Sys2Proof/Syntax.lean ====
section
/-! DEFINITION. The 34 instructions of CHIP-8-base (spec/00_scope.md R2), one constructor per row of
spec/opcode_table.json. Register fields are register numbers (R74), `kk` and `nnn` are bits that the machine adds and
compares (R73), and the height of a sprite is a count whose range WellFormed checks (R73, R123). -/

namespace Sys2Proof

inductive Instr where
  /-- `00E0` CLS (R121). -/
  | cls
  /-- `00EE` RET (R143). -/
  | ret
  /-- `1nnn` JP nnn (R144). -/
  | jp (nnn : BitVec 12)
  /-- `2nnn` CALL nnn (R145). -/
  | call (nnn : BitVec 12)
  /-- `3xkk` SE Vx, kk (R150). -/
  | seByte (x : Reg) (kk : Byte)
  /-- `4xkk` SNE Vx, kk (R151). -/
  | sneByte (x : Reg) (kk : Byte)
  /-- `5xy0` SE Vx, Vy (R152). -/
  | seReg (x y : Reg)
  /-- `6xkk` LD Vx, kk (R174). -/
  | ldByte (x : Reg) (kk : Byte)
  /-- `7xkk` ADD Vx, kk (R175). -/
  | addByte (x : Reg) (kk : Byte)
  /-- `8xy0` LD Vx, Vy (R176). -/
  | ldReg (x y : Reg)
  /-- `8xy1` OR Vx, Vy (R177). -/
  | orReg (x y : Reg)
  /-- `8xy2` AND Vx, Vy (R178). -/
  | andReg (x y : Reg)
  /-- `8xy3` XOR Vx, Vy (R179). -/
  | xorReg (x y : Reg)
  /-- `8xy4` ADD Vx, Vy (R180). -/
  | addReg (x y : Reg)
  /-- `8xy5` SUB Vx, Vy (R181). -/
  | subReg (x y : Reg)
  /-- `8xy6` SHR Vx: `y` is decoded and not read (R75, R182; log entry 12). -/
  | shr (x y : Reg)
  /-- `8xy7` SUBN Vx, Vy (R183). -/
  | subnReg (x y : Reg)
  /-- `8xyE` SHL Vx: `y` is decoded and not read (R75, R184; log entry 12). -/
  | shl (x y : Reg)
  /-- `9xy0` SNE Vx, Vy (R153). -/
  | sneReg (x y : Reg)
  /-- `Annn` LD I, nnn (R201). -/
  | ldI (nnn : BitVec 12)
  /-- `Bnnn` JP V0, nnn (R146). -/
  | jpV0 (nnn : BitVec 12)
  /-- `Cxkk` RND Vx, kk (R185). -/
  | rnd (x : Reg) (kk : Byte)
  /-- `Dxyn` DRW Vx, Vy, n (R124). -/
  | drw (x y : Reg) (n : Nat)
  /-- `Ex9E` SKP Vx (R221). -/
  | skp (x : Reg)
  /-- `ExA1` SKNP Vx (R222). -/
  | sknp (x : Reg)
  /-- `Fx07` LD Vx, DT (R228). -/
  | ldVxDt (x : Reg)
  /-- `Fx0A` LD Vx, K (R223). -/
  | ldVxKey (x : Reg)
  /-- `Fx15` LD DT, Vx (R229). -/
  | ldDtVx (x : Reg)
  /-- `Fx18` LD ST, Vx (R230). -/
  | ldStVx (x : Reg)
  /-- `Fx1E` ADD I, Vx (R202). -/
  | addI (x : Reg)
  /-- `Fx29` LD F, Vx (R203). -/
  | ldFont (x : Reg)
  /-- `Fx33` LD B, Vx (R204). -/
  | ldBcd (x : Reg)
  /-- `Fx55` LD [I], Vx (R205). -/
  | storeRegs (x : Reg)
  /-- `Fx65` LD Vx, [I] (R206). -/
  | loadRegs (x : Reg)
  deriving DecidableEq, Repr

end Sys2Proof
end

