-- ==== Sys2Proof/Decode.lean ====
section
/-! DEFINITION. From bytes to instructions and back: the fields of a word (spec/30_encoding.md R71), the opcode map
(R76 to R83), the encoder over the six formats (R72), the opcode table as masks and patterns
(spec/opcode_table.json), and the assembler syntax (R85). -/

namespace Sys2Proof

/-! ## Fields (R71) -/

/-- The byte at the lower address is bits 15 to 8 (R53, R70). -/
def wordOfBytes (hi lo : Byte) : Word := BitVec.ofNat 16 (hi.toNat * 256 + lo.toNat)

/-- Bits 15 to 8: the byte that memory holds at the lower address (R53). -/
def highByte (w : Word) : Byte := w.extractLsb' 8 8

/-- Bits 7 to 0: the byte that memory holds at the higher address (R53). -/
def lowByte (w : Word) : Byte := w.extractLsb' 0 8

/-- The field `prefix` of R71, bits 15 to 12. -/
def fieldMajor (w : Word) : Nat := (w.extractLsb' 12 4).toNat

/-- The field `x`, bits 11 to 8. -/
def fieldX (w : Word) : Reg := (w.extractLsb' 8 4).toFin

/-- The field `y`, bits 7 to 4. -/
def fieldY (w : Word) : Reg := (w.extractLsb' 4 4).toFin

/-- The field `n`, bits 3 to 0. -/
def fieldN (w : Word) : Nat := (w.extractLsb' 0 4).toNat

/-- The field `kk`, bits 7 to 0. -/
def fieldKk (w : Word) : Byte := w.extractLsb' 0 8

/-- The field `nnn`, bits 11 to 0. -/
def fieldNnn (w : Word) : BitVec 12 := w.extractLsb' 0 12

/-! ## The opcode map (R76 to R83) -/

/-- Prefix 8, selected by `n` (R80). -/
def decodeAlu (x y : Reg) (n : Nat) : Option Instr :=
  match n with
  | 0x0 => some (.ldReg x y)
  | 0x1 => some (.orReg x y)
  | 0x2 => some (.andReg x y)
  | 0x3 => some (.xorReg x y)
  | 0x4 => some (.addReg x y)
  | 0x5 => some (.subReg x y)
  | 0x6 => some (.shr x y)
  | 0x7 => some (.subnReg x y)
  | 0xE => some (.shl x y)
  | _ => none

/-- Prefix E, selected by `kk` (R81). -/
def decodeKeySkip (x : Reg) (kk : Nat) : Option Instr :=
  match kk with
  | 0x9E => some (.skp x)
  | 0xA1 => some (.sknp x)
  | _ => none

/-- Prefix F, selected by `kk` (R82). -/
def decodeMisc (x : Reg) (kk : Nat) : Option Instr :=
  match kk with
  | 0x07 => some (.ldVxDt x)
  | 0x0A => some (.ldVxKey x)
  | 0x15 => some (.ldDtVx x)
  | 0x18 => some (.ldStVx x)
  | 0x1E => some (.addI x)
  | 0x29 => some (.ldFont x)
  | 0x33 => some (.ldBcd x)
  | 0x55 => some (.storeRegs x)
  | 0x65 => some (.loadRegs x)
  | _ => none

/-- Dispatch on the fields (R76 to R82); `none` is an unknown opcode (R83). -/
def decodeWord (w : Word) : Option Instr :=
  match fieldMajor w with
  | 0x0 => if w = 0x00E0 then some .cls else if w = 0x00EE then some .ret else none
  | 0x1 => some (.jp (fieldNnn w))
  | 0x2 => some (.call (fieldNnn w))
  | 0x3 => some (.seByte (fieldX w) (fieldKk w))
  | 0x4 => some (.sneByte (fieldX w) (fieldKk w))
  | 0x5 => if fieldN w = 0 then some (.seReg (fieldX w) (fieldY w)) else none
  | 0x6 => some (.ldByte (fieldX w) (fieldKk w))
  | 0x7 => some (.addByte (fieldX w) (fieldKk w))
  | 0x8 => decodeAlu (fieldX w) (fieldY w) (fieldN w)
  | 0x9 => if fieldN w = 0 then some (.sneReg (fieldX w) (fieldY w)) else none
  | 0xA => some (.ldI (fieldNnn w))
  | 0xB => some (.jpV0 (fieldNnn w))
  | 0xC => some (.rnd (fieldX w) (fieldKk w))
  | 0xD => some (.drw (fieldX w) (fieldY w) (fieldN w))
  | 0xE => decodeKeySkip (fieldX w) (fieldKk w).toNat
  | 0xF => decodeMisc (fieldX w) (fieldKk w).toNat
  | _ => none

/-- Why bytes are no instruction. -/
inductive DecodeError where
  /-- Fewer than the two bytes of an instruction (R70). -/
  | truncated
  /-- A word that matches no row of the opcode map (R83). -/
  | unknownOpcode (w : Word)
  deriving DecidableEq, Repr

/-- Decoding any bytes: the instruction of the first two and the bytes after it, or the reason for the rejection. -/
def decode : List Byte → Except DecodeError (Instr × List Byte)
  | hi :: lo :: rest =>
    match decodeWord (wordOfBytes hi lo) with
    | some i => .ok (i, rest)
    | none => .error (.unknownOpcode (wordOfBytes hi lo))
  | [_] => .error .truncated
  | [] => .error .truncated

/-! ## The encoder, over the formats of R72 -/

/-- Format `NNN`: `pppp nnnn nnnn nnnn`. -/
def wordNnn (p : Nat) (nnn : BitVec 12) : Word := BitVec.ofNat 16 (p * 4096 + nnn.toNat)

/-- Formats `XKK` and `X`: `pppp xxxx kkkk kkkk`. -/
def wordXkk (p : Nat) (x : Reg) (kk : Byte) : Word := BitVec.ofNat 16 (p * 4096 + x.val * 256 + kk.toNat)

/-- Formats `XY` and `XYN`: `pppp xxxx yyyy nnnn`. -/
def wordXyn (p : Nat) (x y : Reg) (n : Nat) : Word :=
  BitVec.ofNat 16 (p * 4096 + x.val * 256 + y.val * 16 + n)

/-- The one word of an instruction (R70, R77 to R82). -/
def encode : Instr → Word
  | .cls => 0x00E0
  | .ret => 0x00EE
  | .jp nnn => wordNnn 0x1 nnn
  | .call nnn => wordNnn 0x2 nnn
  | .seByte x kk => wordXkk 0x3 x kk
  | .sneByte x kk => wordXkk 0x4 x kk
  | .seReg x y => wordXyn 0x5 x y 0x0
  | .ldByte x kk => wordXkk 0x6 x kk
  | .addByte x kk => wordXkk 0x7 x kk
  | .ldReg x y => wordXyn 0x8 x y 0x0
  | .orReg x y => wordXyn 0x8 x y 0x1
  | .andReg x y => wordXyn 0x8 x y 0x2
  | .xorReg x y => wordXyn 0x8 x y 0x3
  | .addReg x y => wordXyn 0x8 x y 0x4
  | .subReg x y => wordXyn 0x8 x y 0x5
  | .shr x y => wordXyn 0x8 x y 0x6
  | .subnReg x y => wordXyn 0x8 x y 0x7
  | .shl x y => wordXyn 0x8 x y 0xE
  | .sneReg x y => wordXyn 0x9 x y 0x0
  | .ldI nnn => wordNnn 0xA nnn
  | .jpV0 nnn => wordNnn 0xB nnn
  | .rnd x kk => wordXkk 0xC x kk
  | .drw x y n => wordXyn 0xD x y n
  | .skp x => wordXkk 0xE x 0x9E
  | .sknp x => wordXkk 0xE x 0xA1
  | .ldVxDt x => wordXkk 0xF x 0x07
  | .ldVxKey x => wordXkk 0xF x 0x0A
  | .ldDtVx x => wordXkk 0xF x 0x15
  | .ldStVx x => wordXkk 0xF x 0x18
  | .addI x => wordXkk 0xF x 0x1E
  | .ldFont x => wordXkk 0xF x 0x29
  | .ldBcd x => wordXkk 0xF x 0x33
  | .storeRegs x => wordXkk 0xF x 0x55
  | .loadRegs x => wordXkk 0xF x 0x65

/-- The bytes of an instruction as memory holds them, the high byte at the lower address (R53). -/
def encodeBytes (i : Instr) : List Byte := [highByte (encode i), lowByte (encode i)]

/-! ## The opcode table -/

/-- One row of spec/opcode_table.json: a word is of the row when its bits under the mask are the pattern. -/
structure OpcodeRow where
  mnemonic : String
  mask : Word
  pattern : Word
  deriving DecidableEq, Repr

/-- The word has the fixed bits of the row. -/
def OpcodeRow.covers (r : OpcodeRow) (w : Word) : Bool := w &&& r.mask == r.pattern

/-- The rows with prefixes 0 to 7. -/
def opcodeRowsLow : List OpcodeRow :=
  [⟨"CLS", 0xFFFF, 0x00E0⟩, ⟨"RET", 0xFFFF, 0x00EE⟩, ⟨"JP_nnn", 0xF000, 0x1000⟩,
   ⟨"CALL_nnn", 0xF000, 0x2000⟩, ⟨"SE_Vx__kk", 0xF000, 0x3000⟩, ⟨"SNE_Vx__kk", 0xF000, 0x4000⟩,
   ⟨"SE_Vx__Vy", 0xF00F, 0x5000⟩, ⟨"LD_Vx__kk", 0xF000, 0x6000⟩, ⟨"ADD_Vx__kk", 0xF000, 0x7000⟩]

/-- The rows with prefix 8. -/
def opcodeRowsAlu : List OpcodeRow :=
  [⟨"LD_Vx__Vy", 0xF00F, 0x8000⟩, ⟨"OR_Vx__Vy", 0xF00F, 0x8001⟩, ⟨"AND_Vx__Vy", 0xF00F, 0x8002⟩,
   ⟨"XOR_Vx__Vy", 0xF00F, 0x8003⟩, ⟨"ADD_Vx__Vy", 0xF00F, 0x8004⟩, ⟨"SUB_Vx__Vy", 0xF00F, 0x8005⟩,
   ⟨"SHR_Vx____Vy", 0xF00F, 0x8006⟩, ⟨"SUBN_Vx__Vy", 0xF00F, 0x8007⟩, ⟨"SHL_Vx____Vy", 0xF00F, 0x800E⟩]

/-- The rows with prefixes 9 to F. -/
def opcodeRowsHigh : List OpcodeRow :=
  [⟨"SNE_Vx__Vy", 0xF00F, 0x9000⟩, ⟨"LD_I__nnn", 0xF000, 0xA000⟩, ⟨"JP_V0__nnn", 0xF000, 0xB000⟩,
   ⟨"RND_Vx__kk", 0xF000, 0xC000⟩, ⟨"DRW_Vx__Vy__n", 0xF000, 0xD000⟩, ⟨"SKP_Vx", 0xF0FF, 0xE09E⟩,
   ⟨"SKNP_Vx", 0xF0FF, 0xE0A1⟩, ⟨"LD_Vx__DT", 0xF0FF, 0xF007⟩, ⟨"LD_Vx__K", 0xF0FF, 0xF00A⟩,
   ⟨"LD_DT__Vx", 0xF0FF, 0xF015⟩, ⟨"LD_ST__Vx", 0xF0FF, 0xF018⟩, ⟨"ADD_I__Vx", 0xF0FF, 0xF01E⟩,
   ⟨"LD_F__Vx", 0xF0FF, 0xF029⟩, ⟨"LD_B__Vx", 0xF0FF, 0xF033⟩, ⟨"LD__I___Vx", 0xF0FF, 0xF055⟩,
   ⟨"LD_Vx___I", 0xF0FF, 0xF065⟩]

/-- The opcode table of spec/opcode_table.json, row for row. -/
def opcodeTable : List OpcodeRow := opcodeRowsLow ++ opcodeRowsAlu ++ opcodeRowsHigh

/-! ## Words numbered as the opcode table numbers them -/

/-- The bytes of an instruction word given by its low `nbits` bits, as memory holds them (R53). -/
def tableBytes (nbits w : Nat) : List Byte :=
  [highByte (BitVec.ofNat 16 (w % 2 ^ nbits)), lowByte (BitVec.ofNat 16 (w % 2 ^ nbits))]

/-- The instruction the decoder reads from a word of the opcode table. -/
def decodeTableWord (nbits w : Nat) : Option Instr :=
  match decode (tableBytes nbits w) with
  | .ok (i, _) => some i
  | .error _ => none

/-! ## Assembler syntax (R85, R86) -/

/-- A hex digit. -/
def hexDigit (d : Nat) : String :=
  ["0", "1", "2", "3", "4", "5", "6", "7", "8", "9", "A", "B", "C", "D", "E", "F"].getD (d % 16) "0"

/-- A register operand: `V` and one hex digit (R85). -/
def asmReg (x : Reg) : String := "V" ++ hexDigit x.val

/-- A number operand of two hex digits (R85). -/
def asmByte (b : Byte) : String := "0x" ++ hexDigit (b.toNat / 16) ++ hexDigit b.toNat

/-- A number operand of three hex digits (R85). -/
def asmNnn (a : BitVec 12) : String := "0x" ++ hexDigit (a.toNat / 256) ++ hexDigit (a.toNat / 16) ++ hexDigit a.toNat

/-- Two operands. -/
def asmTwo (a b : String) : String := a ++ ", " ++ b

/-- The optional operand of `8xy6` and `8xyE`: left out when it is the value that leaving it out means (R85). -/
def asmOptional (x y : Reg) : String := if y = 0 then asmReg x else asmTwo (asmReg x) (asmReg y)

/-- The instruction in the assembler syntax of R85. -/
def Instr.assembly : Instr → String
  | .cls => "CLS"
  | .ret => "RET"
  | .jp nnn => "JP " ++ asmNnn nnn
  | .call nnn => "CALL " ++ asmNnn nnn
  | .seByte x kk => "SE " ++ asmTwo (asmReg x) (asmByte kk)
  | .sneByte x kk => "SNE " ++ asmTwo (asmReg x) (asmByte kk)
  | .seReg x y => "SE " ++ asmTwo (asmReg x) (asmReg y)
  | .ldByte x kk => "LD " ++ asmTwo (asmReg x) (asmByte kk)
  | .addByte x kk => "ADD " ++ asmTwo (asmReg x) (asmByte kk)
  | .ldReg x y => "LD " ++ asmTwo (asmReg x) (asmReg y)
  | .orReg x y => "OR " ++ asmTwo (asmReg x) (asmReg y)
  | .andReg x y => "AND " ++ asmTwo (asmReg x) (asmReg y)
  | .xorReg x y => "XOR " ++ asmTwo (asmReg x) (asmReg y)
  | .addReg x y => "ADD " ++ asmTwo (asmReg x) (asmReg y)
  | .subReg x y => "SUB " ++ asmTwo (asmReg x) (asmReg y)
  | .shr x y => "SHR " ++ asmOptional x y
  | .subnReg x y => "SUBN " ++ asmTwo (asmReg x) (asmReg y)
  | .shl x y => "SHL " ++ asmOptional x y
  | .sneReg x y => "SNE " ++ asmTwo (asmReg x) (asmReg y)
  | .ldI nnn => "LD " ++ asmTwo "I" (asmNnn nnn)
  | .jpV0 nnn => "JP " ++ asmTwo "V0" (asmNnn nnn)
  | .rnd x kk => "RND " ++ asmTwo (asmReg x) (asmByte kk)
  | .drw x y n => "DRW " ++ asmTwo (asmTwo (asmReg x) (asmReg y)) ("0x" ++ hexDigit n)
  | .skp x => "SKP " ++ asmReg x
  | .sknp x => "SKNP " ++ asmReg x
  | .ldVxDt x => "LD " ++ asmTwo (asmReg x) "DT"
  | .ldVxKey x => "LD " ++ asmTwo (asmReg x) "K"
  | .ldDtVx x => "LD " ++ asmTwo "DT" (asmReg x)
  | .ldStVx x => "LD " ++ asmTwo "ST" (asmReg x)
  | .addI x => "ADD " ++ asmTwo "I" (asmReg x)
  | .ldFont x => "LD " ++ asmTwo "F" (asmReg x)
  | .ldBcd x => "LD " ++ asmTwo "B" (asmReg x)
  | .storeRegs x => "LD " ++ asmTwo "[I]" (asmReg x)
  | .loadRegs x => "LD " ++ asmTwo (asmReg x) "[I]"

end Sys2Proof
end

