-- ==== Sys2Proof/Config.lean ====
section
/-! DEFINITION. The fixed parameters of this hardware (spec/00_scope.md R10) and the free inputs that the host gives a
step when the state names none (R17; log entry 2). The parameter FONT stands in State.font; its default is in
Machine/Font.lean (log entry 3). -/

namespace Sys2Proof.Config

/-- `MEM_SIZE`: addresses 0x000 to 0xFFF (R10, R50). -/
@[simp] def memSize : Nat := 4096

/-- `PROGRAM_BASE`, which is also `PC_RESET` (R10, R37). -/
@[simp] def programBase : Nat := 0x200

/-- `MAX_ROM`: the longest program image (R10, R272). -/
@[simp] def maxRom : Nat := 3584

/-- The font occupies addresses below this one: 16 glyphs of 5 bytes from `FONT_BASE` = 0 (R10, R58). -/
@[simp] def fontBytes : Nat := 80

/-- `GLYPH_BYTES` (R10). -/
@[simp] def glyphBytes : Nat := 5

/-- `STACK_DEPTH` (R10, R28). -/
@[simp] def stackDepth : Nat := 16

/-- `FB_ROWS` (R10, R32). -/
@[simp] def fbRows : Nat := 32

/-- `FB_COLS` (R10, R32). -/
@[simp] def fbCols : Nat := 64

/-- The key levels of the `n`-th step whose inputs the schedule does not name. No value of it can be proved: `keys` is
a free input (R17, U21; log entry 2). -/
opaque freeKeys : Nat → Word

/-- The random byte of the `n`-th step whose inputs the schedule does not name. No value of it can be proved: `rnd` is
a free input under no law (R17, U10, D15; log entry 2). -/
opaque freeRnd : Nat → Byte

end Sys2Proof.Config
end

