-- ==== Sys2Proof/Machine/Font.lean ====
section
/-! DEFINITION. The default of the parameter FONT (spec/00_scope.md R10; 93_implementation_defined.md table G2-F, which
the spec itself marks as general knowledge): PRESUMED, log entry 3. -/

namespace Sys2Proof.Machine

/-- The 80 font bytes: glyph `d` at `5 * d` (R58). -/
abbrev Font := Vector Byte 80

/-- The default glyphs 0 to 7 of table G2-F. -/
def defaultGlyphsLow : Vector Byte 40 :=
  #v[0xF0, 0x90, 0x90, 0x90, 0xF0,  0x20, 0x60, 0x20, 0x20, 0x70,  0xF0, 0x10, 0xF0, 0x80, 0xF0,
     0xF0, 0x10, 0xF0, 0x10, 0xF0,  0x90, 0x90, 0xF0, 0x10, 0x10,  0xF0, 0x80, 0xF0, 0x10, 0xF0,
     0xF0, 0x80, 0xF0, 0x90, 0xF0,  0xF0, 0x10, 0x20, 0x40, 0x40]

/-- The default glyphs 8 to F of table G2-F. -/
def defaultGlyphsHigh : Vector Byte 40 :=
  #v[0xF0, 0x90, 0xF0, 0x90, 0xF0,  0xF0, 0x90, 0xF0, 0x10, 0xF0,  0xF0, 0x90, 0xF0, 0x90, 0x90,
     0xE0, 0x90, 0xE0, 0x90, 0xE0,  0xF0, 0x80, 0x80, 0x80, 0xF0,  0xE0, 0x90, 0x90, 0x90, 0xE0,
     0xF0, 0x80, 0xF0, 0x80, 0xF0,  0xF0, 0x80, 0xF0, 0x80, 0x80]

/-- The default FONT: PRESUMED (log entry 3). -/
def defaultFont : Font := defaultGlyphsLow ++ defaultGlyphsHigh

end Sys2Proof.Machine
end

