-- ==== Sys2Proof/Machine/State.lean ====
section
/-! DEFINITION. The state of the CORE (spec/10_state.md R20 to R38), the reasons a step can stop, and the state after
reset. Fields that the spec does not count as CORE state (R36) are marked as the model's own. -/

namespace Sys2Proof.Machine

/-- The kinds of ProgramFault (spec/60_exceptions.md R241, R242). -/
inductive FaultKind where
  | unknownOpcode
  | stackOverflow
  | stackUnderflow
  | memoryOutOfRange
  | pcMisaligned
  | keyIndexOutOfRange
  deriving DecidableEq, Repr

/-- What a ProgramFault reports (R243): `opcode` is none for a fetch fault, `pc` is the address the faulting step
fetched from or tried to fetch from, `info` is the column `info` of R243's table. -/
structure FaultReport where
  kind : FaultKind
  opcode : Option Word
  pc : Word
  info : Option Nat
  deriving DecidableEq, Repr

/-- The run state `RS` (R34). -/
inductive RunState where
  /-- The initial and normal state. -/
  | running
  /-- Waiting for a key-press event, whose key goes to register `r`. -/
  | awaitingKey (r : Reg)
  /-- Halted after a ProgramFault. -/
  | faulted (report : FaultReport)
  deriving DecidableEq, Repr

/-- One operation of the CORE as the host invokes it (spec/00_scope.md R8). -/
inductive HostOp where
  /-- One fetch-decode-execute cycle with the key levels and the random byte it is given (R100). -/
  | step (keys : Word) (rnd : Byte)
  /-- One timer decrement (R250). -/
  | tickTimers
  /-- A key-press event: bit `k` is 1 when key `k` went from not pressed to pressed (R226). -/
  | keyEvent (mask : Word)
  /-- Construct the machine anew with a program image (R270). -/
  | reset (rom : List Byte)
  deriving DecidableEq, Repr

/-- The framebuffer: 32 rows of 64 Boolean pixels, row 0 the top row (R32). -/
abbrev FrameBuffer := Vector (Vector Bool 64) 32

/-- Memory: the bytes that differ from the reset contents, by rising address (R50, R38; log entry 5). -/
abbrev Memory := List Host.Cell

/-- The state. `keys`, `rnd`, `schedule`, `draws`, `presents` and `font` are the model's own fields (log entries 1, 2,
3, 9). -/
@[ext]
structure State where
  /-- `V[0]` to `V[15]` (R20). -/
  v : Vector Byte 16
  /-- The index register `I` (R24). -/
  i : Word
  /-- The program counter `PC` (R25). -/
  pc : Word
  /-- The slots `STACK[0]` to `STACK[15]` (R28). -/
  stack : Vector Word 16
  /-- The stack depth `SP`, 0 to 16 (R28). -/
  sp : Fin 17
  /-- The delay timer `DT` (R30). -/
  dt : Byte
  /-- The sound timer `ST` (R31). -/
  st : Byte
  /-- The framebuffer `FB` (R32). -/
  fb : FrameBuffer
  /-- The run state `RS` (R34). -/
  rs : RunState
  /-- The 4096-byte memory (R50). -/
  mem : Memory
  /-- The parameter `FONT` (R10): the model's own field, changed by nothing. -/
  font : Font
  /-- The key levels given to the step in progress (R17): the model's own field. -/
  keys : Word
  /-- The random byte given to the step in progress (R17): the model's own field. -/
  rnd : Byte
  /-- The operations the host will invoke next, oldest first (R8): the model's own field. -/
  schedule : List HostOp
  /-- How many pairs of free inputs have been used (R17): the model's own field. -/
  draws : Nat
  /-- The snapshots emitted so far, newest first (R255): the model's own field. -/
  presents : List FrameBuffer
  deriving DecidableEq, Repr

/-- Why the machine stops with no next state. -/
inductive Fault where
  /-- `ResourceFault(RomTooLarge)`, code 16 (R247, R272): raised by the host operation `reset(rom)` with an image of
  more than 3584 bytes, which produces no machine. Raised by no instruction. SAFE: nothing is claimed of a machine
  that does not exist (log entry 10). -/
  | romTooLarge
  deriving DecidableEq, Repr

/-- Why the model gives an instruction no meaning. -/
inductive Refusal where
  /-- Raised by an arm of exec whose instruction has no meaning yet. SAFE: nothing can be proved of what follows. No
  arm of this model uses it. -/
  | notModelled (mnemonic : String)
  deriving DecidableEq, Repr

/-- What an instruction or an operation answers. -/
abbrev Result := Host.Outcome State Fault Refusal

/-- The blank framebuffer (R37, R121). -/
abbrev blankFrame : FrameBuffer := Vector.replicate 32 (Vector.replicate 64 false)

/-- The machine right after reset with an empty image (R37, R38, R270). `PC` and `RS` are the source's values, the zeros
are those of R37 (log entry 4), the font is PRESUMED (log entry 3), and the model's own fields are empty (log entries 1,
2, 9). No program is in it (log entry 11). -/
def State.reset : State where
  v := Vector.replicate 16 0
  i := 0
  pc := 0x200
  stack := Vector.replicate 16 0
  sp := 0
  dt := 0
  st := 0
  fb := blankFrame
  rs := .running
  mem := []
  font := defaultFont
  keys := 0
  rnd := 0
  schedule := []
  draws := 0
  presents := []

end Sys2Proof.Machine
end

