-- ==== Sys2Proof/Machine/Ops.lean ====
section
/-! DEFINITION. The shared operations: memory, registers, call stack, framebuffer, fetch, and raising a ProgramFault
(spec/00_scope.md R13 to R18, spec/20_memory.md, spec/42_control_flow.md R147, R148, spec/60_exceptions.md R243). -/

namespace Sys2Proof.Machine

/-! ## Memory (R14, R38, R50 to R57) -/

/-- What an address that no cell lists reads as: the reset contents of R38. -/
def Memory.unlisted (font : Font) (a : Nat) : Byte := if h : a < 80 then font[a] else 0

/-- The canonical form: addresses strictly rising and below 4096, no cell equal to the reset contents (log entry 5). -/
abbrev Memory.wf (font : Font) (m : Memory) : Prop :=
  m.Pairwise (fun c d => c.1 < d.1) ∧ ∀ c ∈ m, c.1 < 4096 ∧ c.2 ≠ Memory.unlisted font c.1

/-- `MemRead(a, 1)` (R14). -/
def Memory.read (font : Font) : Memory → Nat → Byte
  | [], a => Memory.unlisted font a
  | c :: m, a => if c.1 = a then c.2 else Memory.read font m a

/-- Put a cell in its place by address, or take it out. -/
def Memory.put : Memory → Nat → Option Byte → Memory
  | [], a, some b => [(a, b)]
  | [], _, none => []
  | c :: m, a, o =>
    if c.1 < a then c :: Memory.put m a o
    else (o.toList.map fun b => (a, b)) ++ (if c.1 = a then m else c :: m)

/-- `MemWrite(a, 1, b)` (R14). It is only called with `a < 4096`; at any other address it writes nothing (log
entry 5). -/
def Memory.write (font : Font) (m : Memory) (a : Nat) (b : Byte) : Memory :=
  if a < 4096 then Memory.put m a (if b = Memory.unlisted font a then none else some b) else m

/-- Byte writes at consecutive ascending addresses (R52, R54). -/
def Memory.writeBytes (font : Font) (m : Memory) (a : Nat) : List Byte → Memory
  | [] => m
  | b :: bs => Memory.writeBytes font (Memory.write font m a b) (a + 1) bs

/-- One byte of memory. -/
def State.readByte (s : State) (a : Nat) : Byte := Memory.read s.font s.mem a

/-- Byte reads at consecutive ascending addresses (R52). -/
def State.readBytes (s : State) (a : Nat) : Nat → List Byte
  | 0 => []
  | n + 1 => s.readByte a :: s.readBytes (a + 1) n

/-- Byte writes at consecutive ascending addresses (R52). -/
def State.storeBytes (s : State) (a : Nat) (bs : List Byte) : State :=
  { s with mem := Memory.writeBytes s.font s.mem a bs }

/-- `CheckRange(base, count)` in exact integers: the lowest address of the access outside memory, if there is one
(R15, R55). -/
def checkRange (base count : Nat) : Option Nat :=
  if 0 < count ∧ base + count - 1 > 0xFFF then some (max base 0x1000) else none

/-! ## Registers and the program counter -/

/-- `V[x]` (R20). -/
def State.reg (s : State) (x : Reg) : Byte := s.v[x.val]

/-- `V[x] <- b` (R20). -/
def State.setReg (s : State) (x : Reg) (b : Byte) : State := { s with v := s.v.set x.val b }

/-- `PC <- PC + 2`, before the body of every instruction (R104). -/
def State.advance (s : State) : State := { s with pc := s.pc + 2 }

/-- `PC <- a` (R105). -/
def State.jumpTo (s : State) (a : Word) : State := { s with pc := a }

/-- A skip adds a further 2 when its condition holds (R106, R149). -/
def State.skipIf (s : State) (c : Bool) : State := { s with pc := if c then s.pc + 2 else s.pc }

/-! ## The call stack (R147, R148) -/

/-- `Push(a)`; none when 16 entries are held (R145, R147). -/
def State.push? (s : State) (a : Word) : Option State :=
  if h : s.sp.val < 16 then
    some { s with stack := s.stack.set s.sp.val a, sp := ⟨s.sp.val + 1, by omega⟩ }
  else none

/-- `Pop()`: the entry pushed last and the state without it; none when no entry is held (R143, R148). The slot keeps
its value (R28, D28; log entry 8). -/
def State.pop? (s : State) : Option (Word × State) :=
  if h : 0 < s.sp.val then
    some (s.stack[s.sp.val - 1]'(by omega), { s with sp := ⟨s.sp.val - 1, by omega⟩ })
  else none

/-! ## The framebuffer (R32, R124 to R126) -/

/-- The pixel at a row and a column; false outside the grid, where nothing is drawn. -/
def FrameBuffer.pixel (fb : FrameBuffer) (row col : Nat) : Bool :=
  if h : row < 32 ∧ col < 64 then (fb[row]'h.1)[col]'h.2 else false

/-- `FB[row][col] <- not FB[row][col]`; nothing outside the grid: the clipping of R125. -/
def FrameBuffer.toggle (fb : FrameBuffer) (row col : Nat) : FrameBuffer :=
  if h : row < 32 ∧ col < 64 then
    fb.set row ((fb[row]'h.1).set col (!((fb[row]'h.1)[col]'h.2)) h.2) h.1
  else fb

/-- A framebuffer being drawn on, and whether a collision has happened (R126). -/
structure Canvas where
  fb : FrameBuffer
  hit : Bool
  deriving DecidableEq, Repr

/-- One sprite bit at its target pixel: a 1 toggles it and collides if it was set, a 0 leaves it (R122, R124). -/
def Canvas.drawBit (c : Canvas) (row col : Nat) (bit : Bool) : Canvas :=
  if bit then ⟨FrameBuffer.toggle c.fb row col, c.hit || FrameBuffer.pixel c.fb row col⟩ else c

/-- One sprite row, most significant bit first (R122, R124). -/
def Canvas.drawByte (c : Canvas) (row col : Nat) (b : Byte) : Canvas :=
  (List.range 8).foldl (fun c j => c.drawBit row (col + j) (b.getLsbD (7 - j))) c

/-- The rows of a sprite, top row first (R122, R124). -/
def Canvas.drawSprite (c : Canvas) (row col : Nat) : List Byte → Canvas
  | [] => c
  | b :: bs => (c.drawByte row col b).drawSprite (row + 1) col bs

/-- Emit `Present(FB)`: the whole framebuffer as it stands (R255; log entry 9). -/
def State.present (s : State) : State := { s with presents := s.fb :: s.presents }

/-! ## Fetch (R101, R102) -/

/-- The instruction word at `PC`, or the fault of the fetch and its `info` (R101, R102, R246). -/
def State.fetch (s : State) : Except (FaultKind × Nat) Word :=
  if s.pc.toNat % 2 = 1 then .error (.pcMisaligned, s.pc.toNat)
  else if s.pc.toNat > 0xFFE then .error (.memoryOutOfRange, max s.pc.toNat 0x1000)
  else .ok (wordOfBytes (s.readByte s.pc.toNat) (s.readByte (s.pc.toNat + 1)))

/-! ## Taking a ProgramFault (R16, R110, R243, R244)

There is no return from a fault: `Faulted` is terminal but for `reset` (R245). -/

/-- `raise ProgramFault(kind, info)` from the state in which the step began: nothing but `RS` changes, and the report
holds the word fetched, if one was, and the address it was fetched from. -/
def State.raise (s : State) (kind : FaultKind) (opcode : Option Word) (info : Option Nat) : Result :=
  .next { s with rs := .faulted ⟨kind, opcode, s.pc, info⟩ }

/-- The code of a fault kind (R243). -/
def FaultKind.code : FaultKind → Nat
  | .unknownOpcode => 1
  | .stackOverflow => 2
  | .stackUnderflow => 3
  | .memoryOutOfRange => 4
  | .pcMisaligned => 5
  | .keyIndexOutOfRange => 6

/-- The code of a fault without a machine (R247). -/
def Fault.code : Fault → Nat
  | .romTooLarge => 16

/-- The derived output `sound_active` (R256). -/
def State.soundActive (s : State) : Bool := s.st != 0

end Sys2Proof.Machine
end

