-- ==== Sys2Proof/Machine/Operands.lean ====
section
/-! DEFINITION. The operand forms: immediates, values derived from a register, and blocks of registers
(spec/30_encoding.md R73, R74; spec/44_index_memory.md R200). -/

namespace Sys2Proof.Machine

/-- `zext_16(nnn)` (R73). -/
def zextNnn (nnn : BitVec 12) : Word := nnn.setWidth 16

/-- `zext_16(V[x])` (R202, R203). -/
def zextByte (b : Byte) : Word := b.setWidth 16

/-- `trunc_8` of an exact result (R12, R170). -/
def truncByte (n : Nat) : Byte := BitVec.ofNat 8 n

/-- `0x000 + 5 * V[x]`, with no masking of `V[x]` (R203, C9). -/
def glyphAddress (b : Byte) : Word := 5 * zextByte b

/-- The hundreds, tens and ones digits (R204). -/
def bcdDigits (b : Byte) : List Byte :=
  [truncByte (b.toNat / 100), truncByte (b.toNat / 10 % 10), truncByte (b.toNat % 10)]

/-- `V[0]` to `V[x]`, in order (R74, R205). -/
def State.regBlock (s : State) (x : Reg) : List Byte := s.v.toList.take (x.val + 1)

/-- `V[k] <- MemRead(a + k, 1)` for `k` in `0..count-1`, in ascending order (R206). -/
def State.loadBlock (s : State) (a : Nat) : Nat → State
  | 0 => s
  | k + 1 => { s.loadBlock a k with v := (s.loadBlock a k).v.setIfInBounds k (s.readByte (a + k)) }

/-- The value of a register as a key index, if it is one (R220). -/
def keyIndex (b : Byte) : Option (Fin 16) := if h : b.toNat < 16 then some ⟨b.toNat, h⟩ else none

/-- Bit `k` of the key levels: key `k` is pressed (R220, R254). -/
def keyPressed (keys : Word) (k : Fin 16) : Bool := keys.getLsbD k.val

/-- The lowest index whose bit is set (R225, R226). -/
def lowestKey (mask : Word) : Option Nat := (List.range 16).find? fun k => mask.getLsbD k

/-- `V[x] mod 64` (R124, R125). -/
def State.originCol (s : State) (x : Reg) : Nat := (s.reg x).toNat % 64

/-- `V[y] mod 32` (R124, R125). -/
def State.originRow (s : State) (y : Reg) : Nat := (s.reg y).toNat % 32

end Sys2Proof.Machine
end

