-- ==== Sys2Proof/Machine/Flags.lean ====
section
/-! DEFINITION. Every flag computation of the instruction set (spec/43_alu.md R170 to R173, R186; spec/41_display.md
R126). Each is computed from the operand values read before any write. -/

namespace Sys2Proof.Machine

/-- 1 when a condition holds, else 0: the two values a flag takes. -/
def flagOf (c : Bool) : Byte := if c then 1 else 0

/-- The carry of `8xy4`, from the untruncated sum (R180). -/
def carryFlag (a b : Byte) : Byte := flagOf (a.toNat + b.toNat > 255)

/-- NOT borrow of `a - b` (R181, R183). -/
def noBorrowFlag (a b : Byte) : Byte := flagOf (a.toNat ≥ b.toNat)

/-- The bit that a shift right drops (R182). -/
def lowBitFlag (a : Byte) : Byte := a &&& 1

/-- The bit that a shift left drops (R184). -/
def highBitFlag (a : Byte) : Byte := (a >>> 7) &&& 1

/-- The result first, the flag last: with `x = 15` the flag stays (R172). -/
def State.setRegFlag (s : State) (x : Reg) (result flag : Byte) : State := (s.setReg x result).setReg VF flag

end Sys2Proof.Machine
end

