-- ==== Sys2Proof/Machine/Alu.lean ====
section
/-! DEFINITION. Register loads and ALU (spec/43_alu.md). Every instruction of this family advances `PC` by 2 and raises
no fault. -/

namespace Sys2Proof.Machine

/-- `6xkk` (R174). -/
def execLdByte (x : Reg) (kk : Byte) (s : State) : Result := .next (s.advance.setReg x kk)

/-- `7xkk` (R175): 8-bit wraparound, no flag. -/
def execAddByte (x : Reg) (kk : Byte) (s : State) : Result :=
  .next (s.advance.setReg x (truncByte ((s.reg x).toNat + kk.toNat)))

/-- `8xy0` (R176). -/
def execLdReg (x y : Reg) (s : State) : Result := .next (s.advance.setReg x (s.reg y))

/-- `8xy1` (R177). -/
def execOrReg (x y : Reg) (s : State) : Result := .next (s.advance.setReg x (s.reg x ||| s.reg y))

/-- `8xy2` (R178). -/
def execAndReg (x y : Reg) (s : State) : Result := .next (s.advance.setReg x (s.reg x &&& s.reg y))

/-- `8xy3` (R179). -/
def execXorReg (x y : Reg) (s : State) : Result := .next (s.advance.setReg x (s.reg x ^^^ s.reg y))

/-- `8xy4` (R180). -/
def execAddReg (x y : Reg) (s : State) : Result :=
  .next (s.advance.setRegFlag x (truncByte ((s.reg x).toNat + (s.reg y).toNat)) (carryFlag (s.reg x) (s.reg y)))

/-- `8xy5` (R181). -/
def execSubReg (x y : Reg) (s : State) : Result :=
  .next (s.advance.setRegFlag x (s.reg x - s.reg y) (noBorrowFlag (s.reg x) (s.reg y)))

/-- `8xy6` (R182): `V[x]` is shifted, `y` is not read (R75). -/
def execShr (x _y : Reg) (s : State) : Result :=
  .next (s.advance.setRegFlag x (s.reg x >>> 1) (lowBitFlag (s.reg x)))

/-- `8xy7` (R183). -/
def execSubnReg (x y : Reg) (s : State) : Result :=
  .next (s.advance.setRegFlag x (s.reg y - s.reg x) (noBorrowFlag (s.reg y) (s.reg x)))

/-- `8xyE` (R184): `V[x]` is shifted, `y` is not read (R75). -/
def execShl (x _y : Reg) (s : State) : Result :=
  .next (s.advance.setRegFlag x (s.reg x <<< 1) (highBitFlag (s.reg x)))

/-- `Cxkk` (R185): the random byte is the `rnd` input of the step. -/
def execRnd (x : Reg) (kk : Byte) (s : State) : Result := .next (s.advance.setReg x (s.rnd &&& kk))

end Sys2Proof.Machine
end

