-- ==== Sys2Proof/Machine/Control.lean ====
section
/-! DEFINITION. Control transfer, call stack and skips (spec/42_control_flow.md). Jump targets are neither masked nor
checked when `PC` is written (R140). -/

namespace Sys2Proof.Machine

/-- `00EE` (R143). -/
def execRet (s : State) : Result :=
  match s.advance.pop? with
  | none => s.raise .stackUnderflow (some (encode .ret)) none
  | some (a, t) => .next (t.jumpTo a)

/-- `1nnn` (R144). -/
def execJp (nnn : BitVec 12) (s : State) : Result := .next (s.advance.jumpTo (zextNnn nnn))

/-- `2nnn` (R145): pushes the address of the next instruction. -/
def execCall (nnn : BitVec 12) (s : State) : Result :=
  match s.advance.push? s.advance.pc with
  | none => s.raise .stackOverflow (some (encode (.call nnn))) none
  | some t => .next (t.jumpTo (zextNnn nnn))

/-- `Bnnn` (R146): always `V[0]`. -/
def execJpV0 (nnn : BitVec 12) (s : State) : Result :=
  .next (s.advance.jumpTo (zextByte (s.reg 0) + zextNnn nnn))

/-- `3xkk` (R150). -/
def execSeByte (x : Reg) (kk : Byte) (s : State) : Result := .next (s.advance.skipIf (s.reg x == kk))

/-- `4xkk` (R151). -/
def execSneByte (x : Reg) (kk : Byte) (s : State) : Result := .next (s.advance.skipIf (s.reg x != kk))

/-- `5xy0` (R152). -/
def execSeReg (x y : Reg) (s : State) : Result := .next (s.advance.skipIf (s.reg x == s.reg y))

/-- `9xy0` (R153). -/
def execSneReg (x y : Reg) (s : State) : Result := .next (s.advance.skipIf (s.reg x != s.reg y))

end Sys2Proof.Machine
end

