-- ==== Sys2Proof/Machine/Display.lean ====
section
/-! DEFINITION. Display instructions (spec/41_display.md): both end by emitting the whole framebuffer (R120). -/

namespace Sys2Proof.Machine

/-- `00E0` (R121). -/
def execCls (s : State) : Result := .next { s.advance with fb := blankFrame }.present

/-- The canvas after drawing the sprite of `n` bytes at `I` with its origin from `V[x]` and `V[y]` (R124). -/
def State.drawn (s : State) (x y : Reg) (n : Nat) : Canvas :=
  Canvas.drawSprite ⟨s.fb, false⟩ (s.originRow y) (s.originCol x) (s.readBytes s.i.toNat n)

/-- `Dxyn` (R122 to R126): the range check comes before any change, the flag is written once at the end. -/
def execDrw (x y : Reg) (n : Nat) (s : State) : Result :=
  match checkRange s.i.toNat n with
  | some a => s.raise .memoryOutOfRange (some (encode (.drw x y n))) (some a)
  | none => .next ({ s.advance with fb := (s.drawn x y n).fb }.setReg VF (flagOf (s.drawn x y n).hit)).present

end Sys2Proof.Machine
end

