-- ==== Sys2Proof/Machine/Index.lean ====
section
/-! DEFINITION. Index register and memory transfers (spec/44_index_memory.md). An access whose range reaches 0x1000
faults before its first write (R200). -/

namespace Sys2Proof.Machine

/-- `Annn` (R201). -/
def execLdI (nnn : BitVec 12) (s : State) : Result := .next { s.advance with i := zextNnn nnn }

/-- `Fx1E` (R202): wraps modulo 2^16, no flag. -/
def execAddI (x : Reg) (s : State) : Result := .next { s.advance with i := s.i + zextByte (s.reg x) }

/-- `Fx29` (R203). -/
def execLdFont (x : Reg) (s : State) : Result := .next { s.advance with i := glyphAddress (s.reg x) }

/-- `Fx33` (R204). -/
def execLdBcd (x : Reg) (s : State) : Result :=
  match checkRange s.i.toNat 3 with
  | some a => s.raise .memoryOutOfRange (some (encode (.ldBcd x))) (some a)
  | none => .next (s.advance.storeBytes s.i.toNat (bcdDigits (s.reg x)))

/-- `Fx55` (R205): `I` is unchanged. -/
def execStoreRegs (x : Reg) (s : State) : Result :=
  match checkRange s.i.toNat (x.val + 1) with
  | some a => s.raise .memoryOutOfRange (some (encode (.storeRegs x))) (some a)
  | none => .next (s.advance.storeBytes s.i.toNat (s.regBlock x))

/-- `Fx65` (R206): `I` is unchanged. -/
def execLoadRegs (x : Reg) (s : State) : Result :=
  match checkRange s.i.toNat (x.val + 1) with
  | some a => s.raise .memoryOutOfRange (some (encode (.loadRegs x))) (some a)
  | none => .next (s.advance.loadBlock s.i.toNat (x.val + 1))

end Sys2Proof.Machine
end

