-- ==== Sys2Proof/Machine/Keys.lean ====
section
/-! DEFINITION. Key input and timer access (spec/45_keys_timers.md). -/

namespace Sys2Proof.Machine

/-- `Ex9E` (R220, R221): the key levels are the `keys` input of the step. -/
def execSkp (x : Reg) (s : State) : Result :=
  match keyIndex (s.reg x) with
  | none => s.raise .keyIndexOutOfRange (some (encode (.skp x))) (some (s.reg x).toNat)
  | some k => .next (s.advance.skipIf (keyPressed s.keys k))

/-- `ExA1` (R220, R222). -/
def execSknp (x : Reg) (s : State) : Result :=
  match keyIndex (s.reg x) with
  | none => s.raise .keyIndexOutOfRange (some (encode (.sknp x))) (some (s.reg x).toNat)
  | some k => .next (s.advance.skipIf (!keyPressed s.keys k))

/-- `Fx0A` (R223): the key comes later, by `key_event`. -/
def execLdVxKey (x : Reg) (s : State) : Result := .next { s.advance with rs := .awaitingKey x }

/-- `Fx07` (R228). -/
def execLdVxDt (x : Reg) (s : State) : Result := .next (s.advance.setReg x s.dt)

/-- `Fx15` (R229). -/
def execLdDtVx (x : Reg) (s : State) : Result := .next { s.advance with dt := s.reg x }

/-- `Fx18` (R230). -/
def execLdStVx (x : Reg) (s : State) : Result := .next { s.advance with st := s.reg x }

end Sys2Proof.Machine
end

