-- ==== Sys2Proof/Machine/HostOps.lean ====
section
/-! DEFINITION. The operations the host invokes (spec/00_scope.md R8): `step(keys, rnd)` (40_step_cycle.md R100),
`tick_timers()` (60_exceptions.md R250), `key_event(mask)` (45_keys_timers.md R226) and `reset(rom)`
(70_reset_and_hazards.md R270), and which of them comes next (log entry 1). -/

namespace Sys2Proof.Machine

/-- Fetch, decode and execute in `Running` (R100 to R107); `exec` advances `PC` and runs the body. -/
def State.cycle (s : State) : Result :=
  match s.fetch with
  | .error (kind, info) => s.raise kind none (some info)
  | .ok w =>
    match decodeWord w with
    | none => s.raise .unknownOpcode (some w) (some w.toNat)
    | some i => exec i s

/-- `step(keys, rnd)` (R100): nothing while awaiting a key or faulted (R108, R109). -/
def State.stepOp (s : State) (keys : Word) (rnd : Byte) : Result :=
  match s.rs with
  | .running => { s with keys := keys, rnd := rnd }.cycle
  | .awaitingKey _ => .next s
  | .faulted _ => .next s

/-- A timer counts down to 0 and stays there (R30, R31, R250). -/
def decrement (b : Byte) : Byte := if b = 0 then 0 else b - 1

/-- `tick_timers()` (R250): nothing once faulted (R245). -/
def State.tickTimers (s : State) : State :=
  match s.rs with
  | .running => { s with dt := decrement s.dt, st := decrement s.st }
  | .awaitingKey _ => { s with dt := decrement s.dt, st := decrement s.st }
  | .faulted _ => s

/-- `key_event(mask)` (R226): the lowest key of the mask resolves the wait. -/
def State.keyEvent (s : State) (mask : Word) : State :=
  match s.rs with
  | .running => s
  | .awaitingKey r =>
    match lowestKey mask with
    | none => s
    | some k => { s.setReg r (truncByte k) with rs := .running }
  | .faulted _ => s

/-- `reset(rom)` (R270 to R272): a new machine with the image at 0x200, or no machine. The fields that are not CORE
state (R36) stay as they are (log entry 10). -/
def State.resetWith (s : State) (rom : List Byte) : Result :=
  if rom.length > 3584 then .fault .romTooLarge
  else .next { State.reset with
    mem := Memory.writeBytes s.font [] 0x200 rom
    font := s.font, keys := s.keys, rnd := s.rnd, schedule := s.schedule, draws := s.draws, presents := s.presents }

/-- One operation (R8). -/
def State.operate (s : State) : HostOp → Result
  | .step keys rnd => s.stepOp keys rnd
  | .tickTimers => .next s.tickTimers
  | .keyEvent mask => .next (s.keyEvent mask)
  | .reset rom => s.resetWith rom

/-- The operation the host invokes next, and the state without it in the schedule: the oldest of the schedule, or a
`step` with free inputs where the schedule is empty (R17; log entries 1, 2). -/
def State.nextOp (s : State) : HostOp × State :=
  match s.schedule with
  | [] => (.step (Config.freeKeys s.draws) (Config.freeRnd s.draws), { s with draws := s.draws + 1 })
  | op :: rest => (op, { s with schedule := rest })

/-- Where the next fetch can read an instruction: at `PC`, or at 0x200 where `PC` is not fetchable (R101). -/
def State.fetchAddress (s : State) : Word :=
  if s.pc.toNat % 2 = 0 ∧ s.pc.toNat ≤ 0xFFE then s.pc else 0x200

/-- A schedule whose next operation is a `step`: the same one if it is, else the empty one (log entry 11). -/
def scheduleToStep : List HostOp → List HostOp
  | .step keys rnd :: rest => .step keys rnd :: rest
  | .tickTimers :: _ => []
  | .keyEvent _ :: _ => []
  | .reset _ :: _ => []
  | [] => []

/-- The state with bytes placed where the next fetch reads, and nothing in the way of that fetch (log entry 11). -/
def State.withFetchBytes (s : State) (bs : List Byte) : State :=
  { s with
    pc := s.fetchAddress
    rs := .running
    schedule := scheduleToStep s.schedule
    mem := Memory.writeBytes s.font s.mem s.fetchAddress.toNat bs }

end Sys2Proof.Machine
end

