-- ==== Sys2Proof/Machine/Step.lean ====
section
/-! DEFINITION. One step of the machine: the next operation the host invokes (spec/00_scope.md R8; log entry 1). -/

namespace Sys2Proof.Machine

/-- One atomic operation of the CORE: the oldest of the schedule, or `step(keys, rnd)` with free inputs. -/
def step (s : State) : Host.Outcome State Fault Refusal := s.nextOp.2.operate s.nextOp.1

/-- The state whose very next step fetches and runs the given word of the opcode table (log entry 11). -/
def State.withFetchWord (s : State) (nbits w : Nat) : State := s.withFetchBytes (tableBytes nbits w)

end Sys2Proof.Machine
end

