-- ==== Sys2Proof/Safety.lean ====
section
/-! DEFINITION. The terms in which claims are made: what stays unchanged, what each instruction may write, where `PC`
goes, which faults it can raise, what a sprite covers, and the invariants of the machine. They are written from the
rules of spec/ and not from the meanings. -/

namespace Sys2Proof.Machine

/-! ## Frames -/

/-- The parts of the state an instruction may be allowed to change. -/
inductive Part where
  | regs | index | pc | stack | delay | sound | frame | run | memory | presents
  deriving DecidableEq, Repr

/-- Every part but the listed ones is as it was, memory byte for byte; the parameter FONT and the fields that only the
host's side changes always are. -/
def SameExcept (changed : List Part) (s t : State) : Prop :=
  (Part.regs ∈ changed ∨ ∀ r, t.reg r = s.reg r) ∧
  (Part.index ∈ changed ∨ t.i = s.i) ∧
  (Part.pc ∈ changed ∨ t.pc = s.pc) ∧
  (Part.stack ∈ changed ∨ (t.stack = s.stack ∧ t.sp = s.sp)) ∧
  (Part.delay ∈ changed ∨ t.dt = s.dt) ∧
  (Part.sound ∈ changed ∨ t.st = s.st) ∧
  (Part.frame ∈ changed ∨ t.fb = s.fb) ∧
  (Part.run ∈ changed ∨ t.rs = s.rs) ∧
  (Part.memory ∈ changed ∨ ∀ a, t.readByte a = s.readByte a) ∧
  (Part.presents ∈ changed ∨ t.presents = s.presents) ∧
  t.font = s.font ∧ t.keys = s.keys ∧ t.rnd = s.rnd ∧ t.schedule = s.schedule ∧ t.draws = s.draws

/-- The instruction completes, leaves `V[r]` = `f r` for every register, moves on by 2, and changes nothing else. -/
def SetsRegisters (i : Instr) (s : State) (f : Reg → Byte) : Prop :=
  ∃ t, exec i s = .next t ∧ (∀ r, t.reg r = f r) ∧ t.pc = s.pc + 2 ∧ SameExcept [.regs, .pc] s t

/-- The instruction raises a ProgramFault: the run state becomes the report and nothing else changes (R16, R243). -/
def Raises (i : Instr) (s : State) (kind : FaultKind) (info : Option Nat) : Prop :=
  exec i s = .next { s with rs := .faulted ⟨kind, some (encode i), s.pc, info⟩ }

/-- Exactly the words with these bits under the mask decode to the instruction that `build` reads from the word. -/
def Encodes (pattern mask : Word) (build : Word → Instr) : Prop :=
  ∀ w, w &&& mask = pattern ↔ decodeWord w = some (build w)

/-! ## What each instruction may write (R22, R186) -/

/-- The registers an instruction may write: its destinations, and `VF` where it writes the flag (R22, R186). -/
def mayWrite : Instr → Reg → Bool
  | .cls, _ => false
  | .ret, _ => false
  | .jp _, _ => false
  | .call _, _ => false
  | .seByte _ _, _ => false
  | .sneByte _ _, _ => false
  | .seReg _ _, _ => false
  | .ldByte x _, r => r == x
  | .addByte x _, r => r == x
  | .ldReg x _, r => r == x
  | .orReg x _, r => r == x
  | .andReg x _, r => r == x
  | .xorReg x _, r => r == x
  | .addReg x _, r => r == x || r == VF
  | .subReg x _, r => r == x || r == VF
  | .shr x _, r => r == x || r == VF
  | .subnReg x _, r => r == x || r == VF
  | .shl x _, r => r == x || r == VF
  | .sneReg _ _, _ => false
  | .ldI _, _ => false
  | .jpV0 _, _ => false
  | .rnd x _, r => r == x
  | .drw _ _ _, r => r == VF
  | .skp _, _ => false
  | .sknp _, _ => false
  | .ldVxDt x, r => r == x
  | .ldVxKey _, _ => false
  | .ldDtVx _, _ => false
  | .ldStVx _, _ => false
  | .addI _, _ => false
  | .ldFont _, _ => false
  | .ldBcd _, _ => false
  | .storeRegs _, _ => false
  | .loadRegs x, r => decide (r ≤ x)

/-- How many bytes from `I` on an instruction stores to (R50, R204, R205). -/
def storeCount : Instr → Nat
  | .ldBcd _ => 3
  | .storeRegs x => x.val + 1
  | .loadRegs _ => 0
  | .drw _ _ _ => 0
  | .cls => 0
  | .ret => 0
  | .jp _ => 0
  | .call _ => 0
  | .seByte _ _ => 0
  | .sneByte _ _ => 0
  | .seReg _ _ => 0
  | .ldByte _ _ => 0
  | .addByte _ _ => 0
  | .ldReg _ _ => 0
  | .orReg _ _ => 0
  | .andReg _ _ => 0
  | .xorReg _ _ => 0
  | .addReg _ _ => 0
  | .subReg _ _ => 0
  | .shr _ _ => 0
  | .subnReg _ _ => 0
  | .shl _ _ => 0
  | .sneReg _ _ => 0
  | .ldI _ => 0
  | .jpV0 _ => 0
  | .rnd _ _ => 0
  | .skp _ => 0
  | .sknp _ => 0
  | .ldVxDt _ => 0
  | .ldVxKey _ => 0
  | .ldDtVx _ => 0
  | .ldStVx _ => 0
  | .addI _ => 0
  | .ldFont _ => 0

/-- What a byte of memory is after `Fx55`: `V[k]` at `I + k` for every `k` up to `x`, else as before (R205). -/
def State.byteAfterStoreRegs (s : State) (x : Reg) (a : Nat) : Byte :=
  if h : s.i.toNat ≤ a ∧ a ≤ s.i.toNat + x.val then s.reg ⟨a - s.i.toNat, by omega⟩ else s.readByte a

/-- What a byte of memory is after `Fx33`: the digits of `V[x]` at `I`, `I + 1` and `I + 2`, else as before (R204). -/
def State.byteAfterBcd (s : State) (x : Reg) (a : Nat) : Byte :=
  if a = s.i.toNat then BitVec.ofNat 8 ((s.reg x).toNat / 100)
  else if a = s.i.toNat + 1 then BitVec.ofNat 8 ((s.reg x).toNat / 10 % 10)
  else if a = s.i.toNat + 2 then BitVec.ofNat 8 ((s.reg x).toNat % 10)
  else s.readByte a

/-- How many bytes from `I` on an instruction accesses (R50). -/
def accessCount : Instr → Nat
  | .drw _ _ n => n
  | .loadRegs x => x.val + 1
  | .ldBcd _ => 3
  | .storeRegs x => x.val + 1
  | .cls => 0
  | .ret => 0
  | .jp _ => 0
  | .call _ => 0
  | .seByte _ _ => 0
  | .sneByte _ _ => 0
  | .seReg _ _ => 0
  | .ldByte _ _ => 0
  | .addByte _ _ => 0
  | .ldReg _ _ => 0
  | .orReg _ _ => 0
  | .andReg _ _ => 0
  | .xorReg _ _ => 0
  | .addReg _ _ => 0
  | .subReg _ _ => 0
  | .shr _ _ => 0
  | .subnReg _ _ => 0
  | .shl _ _ => 0
  | .sneReg _ _ => 0
  | .ldI _ => 0
  | .jpV0 _ => 0
  | .rnd _ _ => 0
  | .skp _ => 0
  | .sknp _ => 0
  | .ldVxDt _ => 0
  | .ldVxKey _ => 0
  | .ldDtVx _ => 0
  | .ldStVx _ => 0
  | .addI _ => 0
  | .ldFont _ => 0

/-! ## The program counter and the faults of each instruction -/

/-- The word `d` further than `PC`. -/
def State.pcPlus (s : State) (d : Nat) : Word := BitVec.ofNat 16 (s.pc.toNat + d)

/-- `PC` after a skip: 4 further when the condition holds, else 2 (R106). -/
def State.pcSkip (s : State) (c : Prop) [Decidable c] : Word := if c then s.pcPlus 4 else s.pcPlus 2

/-- `PC` after the instruction completes, from the summary table R112 (for `00EE` with no entry held, any value will
do: it does not complete). -/
def pcAfter (s : State) : Instr → Word
  | .jp nnn => BitVec.ofNat 16 nnn.toNat
  | .call nnn => BitVec.ofNat 16 nnn.toNat
  | .jpV0 nnn => BitVec.ofNat 16 ((s.reg 0).toNat + nnn.toNat)
  | .ret => s.stack.toList.getD (s.sp.val - 1) 0
  | .seByte x kk => s.pcSkip (s.reg x = kk)
  | .sneByte x kk => s.pcSkip (s.reg x ≠ kk)
  | .seReg x y => s.pcSkip (s.reg x = s.reg y)
  | .sneReg x y => s.pcSkip (s.reg x ≠ s.reg y)
  | .skp x => s.pcSkip (s.keys.getLsbD (s.reg x).toNat = true)
  | .sknp x => s.pcSkip (s.keys.getLsbD (s.reg x).toNat = false)
  | .cls => s.pcPlus 2
  | .drw _ _ _ => s.pcPlus 2
  | .ldByte _ _ => s.pcPlus 2
  | .addByte _ _ => s.pcPlus 2
  | .ldReg _ _ => s.pcPlus 2
  | .orReg _ _ => s.pcPlus 2
  | .andReg _ _ => s.pcPlus 2
  | .xorReg _ _ => s.pcPlus 2
  | .addReg _ _ => s.pcPlus 2
  | .subReg _ _ => s.pcPlus 2
  | .shr _ _ => s.pcPlus 2
  | .subnReg _ _ => s.pcPlus 2
  | .shl _ _ => s.pcPlus 2
  | .ldI _ => s.pcPlus 2
  | .rnd _ _ => s.pcPlus 2
  | .ldVxDt _ => s.pcPlus 2
  | .ldVxKey _ => s.pcPlus 2
  | .ldDtVx _ => s.pcPlus 2
  | .ldStVx _ => s.pcPlus 2
  | .addI _ => s.pcPlus 2
  | .ldFont _ => s.pcPlus 2
  | .ldBcd _ => s.pcPlus 2
  | .storeRegs _ => s.pcPlus 2
  | .loadRegs _ => s.pcPlus 2

/-- When an instruction raises its own fault, and which (R246): the executing instruction can raise at most one kind. -/
def faultCondition (s : State) : Instr → FaultKind → Prop
  | .call _, k => k = .stackOverflow ∧ s.sp.val = 16
  | .ret, k => k = .stackUnderflow ∧ s.sp.val = 0
  | .drw _ _ n, k => k = .memoryOutOfRange ∧ 0 < n ∧ s.i.toNat + n > 0x1000
  | .ldBcd _, k => k = .memoryOutOfRange ∧ s.i.toNat + 3 > 0x1000
  | .storeRegs x, k => k = .memoryOutOfRange ∧ s.i.toNat + x.val + 1 > 0x1000
  | .loadRegs x, k => k = .memoryOutOfRange ∧ s.i.toNat + x.val + 1 > 0x1000
  | .skp x, k => k = .keyIndexOutOfRange ∧ (s.reg x).toNat > 0xF
  | .sknp x, k => k = .keyIndexOutOfRange ∧ (s.reg x).toNat > 0xF
  | .cls, _ => False
  | .jp _, _ => False
  | .jpV0 _, _ => False
  | .seByte _ _, _ => False
  | .sneByte _ _, _ => False
  | .seReg _ _, _ => False
  | .sneReg _ _, _ => False
  | .ldByte _ _, _ => False
  | .addByte _ _, _ => False
  | .ldReg _ _, _ => False
  | .orReg _ _, _ => False
  | .andReg _ _, _ => False
  | .xorReg _ _, _ => False
  | .addReg _ _, _ => False
  | .subReg _ _, _ => False
  | .shr _ _, _ => False
  | .subnReg _ _, _ => False
  | .shl _ _, _ => False
  | .ldI _, _ => False
  | .rnd _ _, _ => False
  | .ldVxDt _, _ => False
  | .ldVxKey _, _ => False
  | .ldDtVx _, _ => False
  | .ldStVx _, _ => False
  | .addI _, _ => False
  | .ldFont _, _ => False

/-! ## Sprites (R122, R125) -/

/-- The sprite of `Dxyn` has a 1-bit whose target is the pixel at this row and column: row `r - V[y] mod 32` of the
sprite, column `c - V[x] mod 64` of it, bit 7 the leftmost (R122, R124). -/
def State.spriteAt (s : State) (x y : Reg) (n r c : Nat) : Bool :=
  decide ((s.reg y).toNat % 32 ≤ r ∧ r < (s.reg y).toNat % 32 + n ∧
    (s.reg x).toNat % 64 ≤ c ∧ c < (s.reg x).toNat % 64 + 8) &&
  (s.readByte (s.i.toNat + (r - (s.reg y).toNat % 32))).getLsbD (7 - (c - (s.reg x).toNat % 64))

/-- A sprite bit turns a set pixel of the grid off (R126). -/
def State.collides (s : State) (x y : Reg) (n : Nat) : Prop :=
  ∃ r c, r < 32 ∧ c < 64 ∧ s.spriteAt x y n r c = true ∧ FrameBuffer.pixel s.fb r c = true

/-! ## Safe states and invariants -/

/-- A run is safe while the CORE has not halted after a ProgramFault (R282). -/
def State.safe (s : State) : Prop := ∀ report, s.rs ≠ .faulted report

/-- What every reachable state satisfies: memory in canonical form (log entry 5), the range of `PC` (R27), and live
stack entries that a call has pushed: even, at most 0x1000 (R27, R145). -/
structure State.Inv (s : State) : Prop where
  memory : Memory.wf s.font s.mem
  pcRange : s.pc.toNat ≤ 0x10FE
  stackRange : ∀ k : Fin 16, k.val < s.sp.val → s.stack[k.val].toNat ≤ 0x1000 ∧ s.stack[k.val].toNat % 2 = 0

/-- The report is one that R243's table allows in this state, which has not changed since the fault (R244, R245). -/
def State.reportFits (s : State) (report : FaultReport) : Prop :=
  report.pc = s.pc ∧
  match report.kind with
  | .unknownOpcode => ∃ w, report.opcode = some w ∧ decodeWord w = none ∧ report.info = some w.toNat
  | .stackOverflow => (∃ nnn, report.opcode = some (encode (.call nnn))) ∧ s.sp.val = 16 ∧ report.info = none
  | .stackUnderflow => report.opcode = some 0x00EE ∧ s.sp.val = 0 ∧ report.info = none
  | .memoryOutOfRange =>
    (report.opcode = none ∧ s.pc.toNat > 0xFFE ∧ report.info = some (max s.pc.toNat 0x1000)) ∨
    (∃ w i, report.opcode = some w ∧ decodeWord w = some i ∧ 0 < accessCount i ∧
      s.i.toNat + accessCount i > 0x1000 ∧ report.info = some (max s.i.toNat 0x1000))
  | .pcMisaligned => report.opcode = none ∧ s.pc.toNat % 2 = 1 ∧ report.info = some s.pc.toNat
  | .keyIndexOutOfRange =>
    ∃ x, (report.opcode = some (encode (.skp x)) ∨ report.opcode = some (encode (.sknp x))) ∧
      (s.reg x).toNat > 0xF ∧ report.info = some (s.reg x).toNat

/-- If the CORE is halted, its report fits. -/
def State.FaultInv (s : State) : Prop := ∀ report, s.rs = .faulted report → s.reportFits report

end Sys2Proof.Machine
end

