-- ==== Sys2Proof/Certificates/Slice0/Obligations.lean ====
section
/-! DEFINITION. The statements for the provers. Each docstring names the rule of spec/ it formalises; where a clause
rests on a decision of the spec's own (D<n> of 92_eei_decisions.md) or on a choice of the model (a log entry), it says
so. -/

open Sys2Proof Sys2Proof.Machine

/-! ## Encoding -/

/-- Words written out from the encodings of 30_encoding.md R72 to R82 decode to the instructions they stand for. -/
def Obligations.SpecWordsDecodeToTheirInstructions : Prop :=
  decodeWord 0b0000000011100000 = some .cls ∧
  decodeWord 0b0010001100000000 = some (.call 0x300) ∧
  decodeWord 0b0011001101000010 = some (.seByte 3 0x42) ∧
  decodeWord 0b1000001000010110 = some (.shr 2 1) ∧
  decodeWord 0b1010001011110000 = some (.ldI 0x2F0) ∧
  decodeWord 0b1101000000011111 = some (.drw 0 1 15) ∧
  decodeWord 0b1110000110011110 = some (.skp 1) ∧
  decodeWord 0b1111001001100101 = some (.loadRegs 2) ∧
  decodeWord 0b0101000100100001 = none ∧
  decode [0xF2, 0x65, 0xAB] = .ok (.loadRegs 2, [0xAB]) ∧
  decode [0x00, 0x00] = .error (.unknownOpcode 0x0000)

/-- Decoding the word of a well-formed instruction gives the instruction back, with every operand at every value its
field admits, and so it does in the bytes memory holds, whatever follows (30_encoding.md sections 1 to 3). -/
def Obligations.EncodeThenDecodeGivesTheInstruction : Prop :=
  ∀ (i : Instr) (rest : List Byte), i.wellFormed = true →
    decodeWord (encode i) = some i ∧ decode (encodeBytes i ++ rest) = .ok (i, rest)

/-- A word that decodes at all is the word of the term it decodes to, which is well formed: no two words decode to the
same term, and the opcode of a fault report, which the model takes from the instruction, is the word that was fetched
(log entry 7). For `8xy6` and `8xyE` this is the model's choice: R75 says that every value of `y` selects the same
instruction, and the words have terms of their own only because the constructors carry `y` (log entry 12). -/
def Obligations.DecodeThenEncodeGivesTheWord : Prop :=
  ∀ (w : Word) (i : Instr), decodeWord w = some i → i.wellFormed = true ∧ encode i = w

/-- Decoding is total and unambiguous: no word is of two rows of the opcode table, and a word decodes exactly when it is
of some row (30_encoding.md R84, which the spec derives from R77 to R83). -/
def Obligations.EveryWordIsOfOneTableRowOrUnknown : Prop :=
  (∀ w : Word, (opcodeTable.filter fun r => r.covers w).length ≤ 1) ∧
  (∀ w : Word, (decodeWord w).isSome = true ↔ ∃ r ∈ opcodeTable, r.covers w = true)

/-- A word that no row of the table covers is an unknown opcode; a step that fetches one raises `UnknownOpcode`
carrying the word, before `PC` is advanced or any other state changes (30_encoding.md R83, 40_step_cycle.md R103). The
two inputs of the step are latched, in fields that are the model's own (log entry 2). -/
def Obligations.UnknownOpcodeFaultsBeforeAnyChange : Prop :=
  (∀ w : Word, (∀ r ∈ opcodeTable, r.covers w = false) → decodeWord w = none) ∧
  ∀ (s : State) (keys : Word) (rnd : Byte) (w : Word),
    s.rs = .running → s.pc.toNat % 2 = 0 → s.pc.toNat ≤ 0xFFE →
    w.toNat = (s.readByte s.pc.toNat).toNat * 256 + (s.readByte (s.pc.toNat + 1)).toNat →
    decodeWord w = none →
    s.stepOp keys rnd =
      .next { s with keys := keys, rnd := rnd, rs := .faulted ⟨.unknownOpcode, some w, s.pc, some w.toNat⟩ }

/-! ## The step -/

/-- A step runs the decoded instruction: where the two bytes at an even `PC` of at most 0xFFE decode to `i` and the CORE
is running, `step` is `exec i` at that state, with the inputs the schedule names, or free inputs where it names nothing
(40_step_cycle.md R100, R102, R107; the schedule and the free inputs are the model's choice, log entries 1 and 2).
`exec` itself advances `PC`. -/
def Obligations.StepRunsTheDecodedInstruction : Prop :=
  ∀ (s : State) (i : Instr),
    s.rs = .running → s.pc.toNat % 2 = 0 → s.pc.toNat ≤ 0xFFE →
    decode [s.readByte s.pc.toNat, s.readByte (s.pc.toNat + 1)] = .ok (i, []) →
    (∀ keys rnd rest, s.schedule = .step keys rnd :: rest →
      step s = exec i { s with schedule := rest, keys := keys, rnd := rnd }) ∧
    (s.schedule = [] →
      step s = exec i { s with
        draws := s.draws + 1, keys := Config.freeKeys s.draws, rnd := Config.freeRnd s.draws })

/-- The fetch faults and their order: an odd `PC` first, then a `PC` above 0xFFE; both report no opcode and change
nothing but `RS` (40_step_cycle.md R101, R246, by the spec's decisions D2, D3, D8). -/
def Obligations.FetchFaultsAtOddOrHighPc : Prop :=
  ∀ (s : State) (keys : Word) (rnd : Byte), s.rs = .running →
    (s.pc.toNat % 2 = 1 → s.stepOp keys rnd =
      .next { s with keys := keys, rnd := rnd, rs := .faulted ⟨.pcMisaligned, none, s.pc, some s.pc.toNat⟩ }) ∧
    (s.pc.toNat % 2 = 0 → s.pc.toNat > 0xFFE → s.stepOp keys rnd =
      .next { s with keys := keys, rnd := rnd,
                     rs := .faulted ⟨.memoryOutOfRange, none, s.pc, some (max s.pc.toNat 0x1000)⟩ })

/-- While awaiting a key, `step` is a no-op: it does not fetch, no state changes, no fault is possible and nothing is
presented; `tick_timers` remains active (40_step_cycle.md R108). Which operation comes next is the model's choice (log
entries 1 and 2): where the schedule names it, only the schedule moves on; where the schedule is empty it is a `step`
with free inputs, and only the counter of free inputs moves. -/
def Obligations.StepIsNoOpWhileAwaitingKey : Prop :=
  ∀ (s : State) (r : Reg), s.rs = .awaitingKey r →
    (∀ keys rnd, s.operate (.step keys rnd) = .next s) ∧
    (∀ keys rnd rest, s.schedule = .step keys rnd :: rest → step s = .next { s with schedule := rest }) ∧
    (s.schedule = [] → step s = .next { s with draws := s.draws + 1 }) ∧
    (∀ rest, s.schedule = .tickTimers :: rest → ∃ t, step s = .next t ∧
      t.dt.toNat = s.dt.toNat - 1 ∧ t.st.toNat = s.st.toNat - 1 ∧
      SameExcept [.delay, .sound] { s with schedule := rest } t)

/-- Nothing leaves `Faulted` but reset: any other operation changes nothing (60_exceptions.md R245, by the spec's
decision D6). Which operation comes next is the model's choice (log entries 1 and 2): where the schedule names it, only
the schedule moves on; where the schedule is empty only the counter of free inputs moves. -/
def Obligations.OnlyResetLeavesFaulted : Prop :=
  ∀ (s : State) (report : FaultReport), s.rs = .faulted report →
    (∀ op, (∀ rom, op ≠ .reset rom) → s.operate op = .next s) ∧
    (∀ op rest, s.schedule = op :: rest → (∀ rom, op ≠ .reset rom) → step s = .next { s with schedule := rest }) ∧
    (s.schedule = [] → step s = .next { s with draws := s.draws + 1 })

/-- Faults are precise: a step that faults changes nothing but `RS`, the report's `pc` is the address of the faulting
instruction, and its opcode is the word fetched there, if one was (40_step_cycle.md R110, by the spec's decision D5;
the two inputs of the step are latched, log entry 2). -/
def Obligations.FaultingStepChangesOnlyTheRunState : Prop :=
  ∀ (s t : State) (keys : Word) (rnd : Byte) (report : FaultReport),
    s.rs = .running → s.stepOp keys rnd = .next t → t.rs = .faulted report →
    t = { s with keys := keys, rnd := rnd, rs := .faulted report } ∧ report.pc = s.pc ∧
    ((report.opcode = none ∧ ∀ w, s.fetch ≠ .ok w) ∨ ∃ w, s.fetch = .ok w ∧ report.opcode = some w)

/-- `PC` after every instruction that completes: a further 2, a further 4 for a skip whose condition holds, and exactly
the target for the four that set `PC` (40_step_cycle.md R105 and R106; the targets are those of its summary R112,
which the spec derives, and the skip conditions those of 42_control_flow.md R150 to R153 and 45_keys_timers.md R221 and
R222). That the target of `Bnnn` is not masked is the spec's decision D2 (42_control_flow.md
R146; log entry 6). -/
def Obligations.ProgramCounterAfterEveryInstruction : Prop :=
  ∀ (i : Instr) (s t : State), exec i s = .next t → (∀ report, t.rs ≠ .faulted report) → t.pc = pcAfter s i

/-- No instruction stops the machine: `exec` answers a next state for every instruction in every state (60_exceptions.md
section 1: a ProgramFault is a run state, by the spec's decisions D5 and D6; log entry 7). -/
def Obligations.EveryInstructionAnswersANextState : Prop :=
  ∀ (i : Instr) (s : State), ∃ t, exec i s = .next t

/-- An instruction halts a running CORE exactly when its own fault condition holds, and with that kind; no other change
of `RS` exists but the wait that `Fx0A` enters (60_exceptions.md R246 and 45_keys_timers.md R223; the conditions are
those of R145, R143, R15, R220, by the spec's decisions D2, D8, D12). -/
def Obligations.InstructionFaultsExactlyUnderItsCondition : Prop :=
  ∀ (i : Instr) (s t : State), s.rs = .running → exec i s = .next t →
    (∀ k, faultCondition s i k ↔ ∃ report, t.rs = .faulted report ∧ report.kind = k) ∧
    ((∀ k, ¬ faultCondition s i k) → t.rs = .running ∨ ∃ x, i = .ldVxKey x ∧ t.rs = .awaitingKey x)

/-- Every access that would reach 0x1000 faults with the lowest offending address and no effect: sprite reads, digit
stores, and the register block both ways, in exact integers (00_scope.md R15, 20_memory.md R55, 44_index_memory.md R200,
by the spec's decisions D2 and D4). -/
def Obligations.OutOfRangeAccessFaultsWithoutEffect : Prop :=
  ∀ (i : Instr) (s : State), 0 < accessCount i → s.i.toNat + accessCount i > 0x1000 →
    Raises i s .memoryOutOfRange (some (max s.i.toNat 0x1000))

/-! ## Display -/

/-- `00E0` makes every pixel false, presents the framebuffer, and changes nothing else but `PC` (41_display.md R121). -/
def Obligations.ClsClearsAndPresents : Prop :=
  (∀ w : Word, w = 0x00E0 ↔ decodeWord w = some .cls) ∧
  ∀ s : State, ∃ t, exec .cls s = .next t ∧
    (∀ r c, r < 32 → c < 64 → FrameBuffer.pixel t.fb r c = false) ∧
    t.presents = t.fb :: s.presents ∧ t.pc = s.pc + 2 ∧ SameExcept [.frame, .presents, .pc] s t

/-- `Dxyn` XORs every pixel of the grid with the sprite bit that lands on it: the origin wraps, the sprite is clipped
pixel by pixel; `VF` is 1 exactly when some sprite bit turned a set pixel off; the framebuffer is presented; nothing
else changes but `PC` (41_display.md R122, R125, R126). It holds where the sprite lies in memory, a height of 0
included: that such a draw completes wherever `I` points, clears `VF` and presents is the spec's decision D13 (R123; log
entry 6). Elsewhere OutOfRangeAccessFaultsWithoutEffect says what happens. -/
def Obligations.DrwTogglesExactlyTheSpritePixels : Prop :=
  Encodes 0xD000 0xF000 (fun w => .drw (fieldX w) (fieldY w) (fieldN w)) ∧
  ∀ (x y : Reg) (n : Nat) (s : State), n = 0 ∨ s.i.toNat + n ≤ 0x1000 →
    ∃ t, exec (.drw x y n) s = .next t ∧
      (∀ r c, r < 32 → c < 64 →
        FrameBuffer.pixel t.fb r c = (FrameBuffer.pixel s.fb r c ^^ s.spriteAt x y n r c)) ∧
      ((t.reg VF = 1 ∧ s.collides x y n) ∨ (t.reg VF = 0 ∧ ¬ s.collides x y n)) ∧
      (∀ r, r ≠ VF → t.reg r = s.reg r) ∧
      t.presents = t.fb :: s.presents ∧ t.pc = s.pc + 2 ∧
      SameExcept [.regs, .frame, .presents, .pc] s t

/-- `Dxy0` draws nothing, reads no memory wherever `I` points, clears `VF` and presents the framebuffer (41_display.md
R123, by the spec's decision D13). -/
def Obligations.DrwOfHeightZeroClearsVfOnly : Prop :=
  ∀ (x y : Reg) (s : State), ∃ t, exec (.drw x y 0) s = .next t ∧ t.reg VF = 0 ∧ (∀ r, r ≠ VF → t.reg r = s.reg r) ∧
    t.presents = s.fb :: s.presents ∧ t.pc = s.pc + 2 ∧ SameExcept [.regs, .presents, .pc] s t

/-- Drawing the same sprite twice at the same position restores the framebuffer, and the second draw sets `VF` exactly
when the first turned a pixel on (41_display.md R127, which the spec derives from R124). The first draw may change a
coordinate only where `x` or `y` is 15; the premise says that the position is the same. -/
def Obligations.DrawingTwiceRestoresTheFrame : Prop :=
  ∀ (x y : Reg) (n : Nat) (s t : State), n = 0 ∨ s.i.toNat + n ≤ 0x1000 →
    exec (.drw x y n) s = .next t → t.reg x = s.reg x → t.reg y = s.reg y →
    ∃ u, exec (.drw x y n) t = .next u ∧ u.fb = s.fb ∧
      (u.reg VF = 1 ↔ ∃ r c, r < 32 ∧ c < 64 ∧
        FrameBuffer.pixel t.fb r c = true ∧ FrameBuffer.pixel s.fb r c = false)

/-- The framebuffer is changed by the draw and the clear only, and each of these, when it completes, ends by presenting
the whole framebuffer once; no other instruction presents anything (41_display.md R120). -/
def Obligations.OnlyDrawAndClearTouchTheFrame : Prop :=
  ∀ (i : Instr) (s t : State), s.rs = .running → exec i s = .next t →
    ((i = .cls ∨ ∃ x y n, i = .drw x y n) → t.rs = .running → t.presents = t.fb :: s.presents) ∧
    (¬ (i = .cls ∨ ∃ x y n, i = .drw x y n) → t.fb = s.fb ∧ t.presents = s.presents)

/-! ## Control transfer, stack and skips -/

/-- `1nnn` sets `PC` to `nnn`, unmasked and unchecked, and changes nothing else (42_control_flow.md R144). -/
def Obligations.JpSetsPcToNnn : Prop :=
  Encodes 0x1000 0xF000 (fun w => .jp (fieldNnn w)) ∧
  ∀ (nnn : BitVec 12) (s : State), ∃ t, exec (.jp nnn) s = .next t ∧
    t.pc.toNat = nnn.toNat ∧ SameExcept [.pc] s t

/-- `Bnnn` sets `PC` to `V0 + nnn`, always `V0`, with no wrap and no mask, and changes nothing else (42_control_flow.md
R146, by the spec's decision D2). -/
def Obligations.JpV0AddsV0 : Prop :=
  Encodes 0xB000 0xF000 (fun w => .jpV0 (fieldNnn w)) ∧
  ∀ (nnn : BitVec 12) (s : State), ∃ t, exec (.jpV0 nnn) s = .next t ∧
    t.pc.toNat = (s.reg 0).toNat + nnn.toNat ∧ SameExcept [.pc] s t

/-- `2nnn` pushes the address of the next instruction and goes to `nnn`; with 16 entries held it raises `StackOverflow`
before any change (42_control_flow.md R145, R147). -/
def Obligations.CallPushesTheReturnAddress : Prop :=
  Encodes 0x2000 0xF000 (fun w => .call (fieldNnn w)) ∧
  ∀ (nnn : BitVec 12) (s : State),
    (s.sp.val < 16 → ∃ t, exec (.call nnn) s = .next t ∧ t.sp.val = s.sp.val + 1 ∧
      (∀ k : Fin 16, t.stack[k.val] = if k.val = s.sp.val then s.pc + 2 else s.stack[k.val]) ∧
      t.pc.toNat = nnn.toNat ∧ SameExcept [.stack, .pc] s t) ∧
    (s.sp.val = 16 → Raises (.call nnn) s .stackOverflow none)

/-- `00EE` takes the entry pushed last off the stack and goes to it, adding nothing; with no entry held it raises
`StackUnderflow` before any change, with opcode 0x00EE (42_control_flow.md R143). Slots at or above the new depth hold
no value a program can observe; nothing is said of them (log entry 8). -/
def Obligations.RetPopsTheReturnAddress : Prop :=
  (∀ w : Word, w = 0x00EE ↔ decodeWord w = some .ret) ∧
  ∀ s : State,
    (0 < s.sp.val → ∃ t, exec .ret s = .next t ∧ t.sp.val + 1 = s.sp.val ∧
      (∀ k : Fin 16, k.val + 1 = s.sp.val → t.pc = s.stack[k.val]) ∧
      (∀ k : Fin 16, k.val < t.sp.val → t.stack[k.val] = s.stack[k.val]) ∧ SameExcept [.stack, .pc] s t) ∧
    (s.sp.val = 0 →
      exec .ret s = .next { s with rs := .faulted ⟨.stackUnderflow, some 0x00EE, s.pc, none⟩ })

/-- The stack is last-in first-out: a return, in any state that has the stack a call left, goes to the instruction after
the call and leaves the depth and the live entries as they were before the call (42_control_flow.md R148). -/
def Obligations.CallThenRetReturnsAfterTheCall : Prop :=
  ∀ (nnn : BitVec 12) (s : State), s.sp.val < 16 →
    ∃ t, exec (.call nnn) s = .next t ∧ ∀ u : State, u.stack = t.stack → u.sp = t.sp →
      ∃ v, exec .ret u = .next v ∧ v.pc = s.pc + 2 ∧ v.sp = s.sp ∧
        ∀ k : Fin 16, k.val < s.sp.val → v.stack[k.val] = s.stack[k.val]

/-- The four register skips: `PC` goes 4 further when the condition holds, else 2, and nothing else changes
(42_control_flow.md R150 to R153). -/
def Obligations.RegisterSkipsTestTheirCondition : Prop :=
  Encodes 0x3000 0xF000 (fun w => .seByte (fieldX w) (fieldKk w)) ∧
  Encodes 0x4000 0xF000 (fun w => .sneByte (fieldX w) (fieldKk w)) ∧
  Encodes 0x5000 0xF00F (fun w => .seReg (fieldX w) (fieldY w)) ∧
  Encodes 0x9000 0xF00F (fun w => .sneReg (fieldX w) (fieldY w)) ∧
  ∀ (x y : Reg) (kk : Byte) (s : State),
    exec (.seByte x kk) s = .next { s with pc := if s.reg x = kk then s.pc + 4 else s.pc + 2 } ∧
    exec (.sneByte x kk) s = .next { s with pc := if s.reg x = kk then s.pc + 2 else s.pc + 4 } ∧
    exec (.seReg x y) s = .next { s with pc := if s.reg x = s.reg y then s.pc + 4 else s.pc + 2 } ∧
    exec (.sneReg x y) s = .next { s with pc := if s.reg x = s.reg y then s.pc + 2 else s.pc + 4 }

/-- The call stack is touched by `2nnn` and `00EE` only (10_state.md R28, with the spec's decision D28). -/
def Obligations.OnlyCallAndRetTouchTheStack : Prop :=
  ∀ (i : Instr) (s t : State), exec i s = .next t → (∀ nnn, i ≠ .call nnn) → i ≠ .ret →
    t.stack = s.stack ∧ t.sp = s.sp

/-! ## Loads and ALU -/

/-- `6xkk` and `7xkk`: the byte, or the sum modulo 256, goes to `V[x]`; no other register changes, `VF` included unless
it is `V[x]`, and nothing else changes but `PC` (43_alu.md R174, R175). -/
def Obligations.ByteLoadAndAddWriteVx : Prop :=
  Encodes 0x6000 0xF000 (fun w => .ldByte (fieldX w) (fieldKk w)) ∧
  Encodes 0x7000 0xF000 (fun w => .addByte (fieldX w) (fieldKk w)) ∧
  ∀ (x : Reg) (kk : Byte) (s : State),
    SetsRegisters (.ldByte x kk) s (fun r => if r = x then kk else s.reg r) ∧
    SetsRegisters (.addByte x kk) s
      (fun r => if r = x then BitVec.ofNat 8 (((s.reg x).toNat + kk.toNat) % 256) else s.reg r)

/-- `8xy0` to `8xy3`: the move and the bitwise operations write `V[x]`, bit by bit, and no flag (43_alu.md R176 to R179).
The forms of OR, AND and XOR are readings the spec derives from one row of the source (R177 to R179; gap N5 of
91_not_in_source.md). -/
def Obligations.MovesAndBitwiseOpsWriteVx : Prop :=
  Encodes 0x8000 0xF00F (fun w => .ldReg (fieldX w) (fieldY w)) ∧
  Encodes 0x8001 0xF00F (fun w => .orReg (fieldX w) (fieldY w)) ∧
  Encodes 0x8002 0xF00F (fun w => .andReg (fieldX w) (fieldY w)) ∧
  Encodes 0x8003 0xF00F (fun w => .xorReg (fieldX w) (fieldY w)) ∧
  ∀ (x y : Reg) (s : State), ∃ o a e : Byte,
    (∀ k < 8, o.getLsbD k = ((s.reg x).getLsbD k || (s.reg y).getLsbD k) ∧
      a.getLsbD k = ((s.reg x).getLsbD k && (s.reg y).getLsbD k) ∧
      e.getLsbD k = ((s.reg x).getLsbD k ^^ (s.reg y).getLsbD k)) ∧
    SetsRegisters (.ldReg x y) s (fun r => if r = x then s.reg y else s.reg r) ∧
    SetsRegisters (.orReg x y) s (fun r => if r = x then o else s.reg r) ∧
    SetsRegisters (.andReg x y) s (fun r => if r = x then a else s.reg r) ∧
    SetsRegisters (.xorReg x y) s (fun r => if r = x then e else s.reg r)

/-- `8xy4`, `8xy5` and `8xy7`: the result modulo 256 goes to `V[x]`, then the carry or NOT borrow to `VF`, both from the
operand values before any write (43_alu.md R180, R181, R183). Where `x` is 15 the flag stays: the order of the rules'
lines, which R172 calls the spec's decision D9. -/
def Obligations.AddAndSubtractSetVfLast : Prop :=
  Encodes 0x8004 0xF00F (fun w => .addReg (fieldX w) (fieldY w)) ∧
  Encodes 0x8005 0xF00F (fun w => .subReg (fieldX w) (fieldY w)) ∧
  Encodes 0x8007 0xF00F (fun w => .subnReg (fieldX w) (fieldY w)) ∧
  ∀ (x y : Reg) (s : State),
    SetsRegisters (.addReg x y) s (fun r =>
      if r = VF then (if (s.reg x).toNat + (s.reg y).toNat > 255 then 1 else 0)
      else if r = x then BitVec.ofNat 8 (((s.reg x).toNat + (s.reg y).toNat) % 256) else s.reg r) ∧
    SetsRegisters (.subReg x y) s (fun r =>
      if r = VF then (if (s.reg x).toNat ≥ (s.reg y).toNat then 1 else 0)
      else if r = x then BitVec.ofNat 8 (((s.reg x).toNat + 256 - (s.reg y).toNat) % 256) else s.reg r) ∧
    SetsRegisters (.subnReg x y) s (fun r =>
      if r = VF then (if (s.reg y).toNat ≥ (s.reg x).toNat then 1 else 0)
      else if r = x then BitVec.ofNat 8 (((s.reg y).toNat + 256 - (s.reg x).toNat) % 256) else s.reg r)

/-- `8xy6` and `8xyE`: `V[x]`, never `V[y]`, is shifted by one, then the bit it lost goes to `VF`; every value of `y`
does the same (43_alu.md R182, R184). Where `x` is 15 the flag stays: the order of the rules' lines, which R172 calls
the spec's decision D9. -/
def Obligations.ShiftsSetVfToTheLostBit : Prop :=
  Encodes 0x8006 0xF00F (fun w => .shr (fieldX w) (fieldY w)) ∧
  Encodes 0x800E 0xF00F (fun w => .shl (fieldX w) (fieldY w)) ∧
  ∀ (x y : Reg) (s : State),
    SetsRegisters (.shr x y) s (fun r =>
      if r = VF then BitVec.ofNat 8 ((s.reg x).toNat % 2)
      else if r = x then BitVec.ofNat 8 ((s.reg x).toNat / 2) else s.reg r) ∧
    SetsRegisters (.shl x y) s (fun r =>
      if r = VF then BitVec.ofNat 8 ((s.reg x).toNat / 128)
      else if r = x then BitVec.ofNat 8 ((s.reg x).toNat * 2 % 256) else s.reg r)

/-- `Cxkk` writes the step's random byte AND `kk`, bit by bit, for every random byte (43_alu.md section 4, R185: the
random byte is under no law by the spec's decision D15). -/
def Obligations.RndMasksTheRandomByte : Prop :=
  Encodes 0xC000 0xF000 (fun w => .rnd (fieldX w) (fieldKk w)) ∧
  ∀ (x : Reg) (kk rnd : Byte) (s : State), ∃ b : Byte,
    (∀ k < 8, b.getLsbD k = (rnd.getLsbD k && kk.getLsbD k)) ∧
    SetsRegisters (.rnd x kk) { s with rnd := rnd } (fun r => if r = x then b else s.reg r)

/-- A register changes only where the rules name it as a destination or as the flag (10_state.md R22, 43_alu.md R186,
which the spec derives from the instruction rules). -/
def Obligations.RegistersChangeOnlyWhereNamed : Prop :=
  ∀ (i : Instr) (s t : State) (r : Reg), exec i s = .next t → mayWrite i r = false → t.reg r = s.reg r

/-! ## Index register and memory -/

/-- `Annn` and `Fx29` set `I` to `nnn` and to `5 * V[x]`, unmasked, and change nothing else but `PC`
(44_index_memory.md R201, R203). -/
def Obligations.IndexLoadsSetI : Prop :=
  Encodes 0xA000 0xF000 (fun w => .ldI (fieldNnn w)) ∧
  Encodes 0xF029 0xF0FF (fun w => .ldFont (fieldX w)) ∧
  ∀ (nnn : BitVec 12) (x : Reg) (s : State),
    (∃ t, exec (.ldI nnn) s = .next t ∧ t.i.toNat = nnn.toNat ∧ t.pc = s.pc + 2 ∧ SameExcept [.index, .pc] s t) ∧
    (∃ t, exec (.ldFont x) s = .next t ∧ t.i.toNat = 5 * (s.reg x).toNat ∧ t.pc = s.pc + 2 ∧
      SameExcept [.index, .pc] s t)

/-- `Fx1E` adds `V[x]` to `I` modulo 2^16 and changes no flag (44_index_memory.md R202, by the spec's decision D11). -/
def Obligations.AddIWrapsModulo65536 : Prop :=
  Encodes 0xF01E 0xF0FF (fun w => .addI (fieldX w)) ∧
  ∀ (x : Reg) (s : State), ∃ t, exec (.addI x) s = .next t ∧
    t.i.toNat = (s.i.toNat + (s.reg x).toNat) % 65536 ∧ t.pc = s.pc + 2 ∧ SameExcept [.index, .pc] s t

/-- `Fx33` stores the hundreds, tens and ones digits of `V[x]` at `I`, `I + 1`, `I + 2` and nothing elsewhere; a range
that reaches 0x1000 faults with no byte written (44_index_memory.md R204). Memory is in canonical form, which every
step keeps (StepKeepsTheStateInRange). -/
def Obligations.BcdStoresThreeDigits : Prop :=
  Encodes 0xF033 0xF0FF (fun w => .ldBcd (fieldX w)) ∧
  ∀ (x : Reg) (s : State),
    (Memory.wf s.font s.mem → s.i.toNat + 2 ≤ 0xFFF → ∃ t, exec (.ldBcd x) s = .next t ∧
      (t.readByte s.i.toNat).toNat = (s.reg x).toNat / 100 ∧
      (t.readByte (s.i.toNat + 1)).toNat = (s.reg x).toNat / 10 % 10 ∧
      (t.readByte (s.i.toNat + 2)).toNat = (s.reg x).toNat % 10 ∧
      (∀ a, a < s.i.toNat ∨ s.i.toNat + 3 ≤ a → t.readByte a = s.readByte a) ∧
      t.pc = s.pc + 2 ∧ SameExcept [.memory, .pc] s t) ∧
    (s.i.toNat + 2 > 0xFFF → ∃ a, Raises (.ldBcd x) s .memoryOutOfRange (some a))

/-- `Fx55` stores `V[k]` at `I + k` for every `k` up to `x`, and nothing elsewhere; `I` is unchanged
(44_index_memory.md R205, by the spec's decision D10). Memory is in canonical form, which every step keeps
(StepKeepsTheStateInRange). -/
def Obligations.StoreRegsDumpsTheBlock : Prop :=
  Encodes 0xF055 0xF0FF (fun w => .storeRegs (fieldX w)) ∧
  ∀ (x : Reg) (s : State), Memory.wf s.font s.mem → s.i.toNat + x.val ≤ 0xFFF →
    ∃ t, exec (.storeRegs x) s = .next t ∧
      (∀ k : Reg, k ≤ x → t.readByte (s.i.toNat + k.val) = s.reg k) ∧
      (∀ a, a < s.i.toNat ∨ s.i.toNat + x.val < a → t.readByte a = s.readByte a) ∧
      t.pc = s.pc + 2 ∧ SameExcept [.memory, .pc] s t

/-- `Fx65` loads `V[k]` from `I + k` for every `k` up to `x` and no other register; `I` is unchanged
(44_index_memory.md R206, by the spec's decision D10). -/
def Obligations.LoadRegsFillsTheBlock : Prop :=
  Encodes 0xF065 0xF0FF (fun w => .loadRegs (fieldX w)) ∧
  ∀ (x : Reg) (s : State), s.i.toNat + x.val ≤ 0xFFF →
    SetsRegisters (.loadRegs x) s (fun r => if r ≤ x then s.readByte (s.i.toNat + r.val) else s.reg r)

/-- No instruction changes a byte of memory outside the bytes it stores to, which start at `I` (20_memory.md R50, R61;
44_index_memory.md R200). -/
def Obligations.MemoryChangesOnlyInTheStoredRange : Prop :=
  ∀ (i : Instr) (s t : State) (a : Nat), exec i s = .next t →
    (a < s.i.toNat ∨ s.i.toNat + storeCount i ≤ a) → t.readByte a = s.readByte a

/-- `I` is changed by `Annn`, `Fx1E` and `Fx29` only (10_state.md R24, by the spec's decision D10 for the block
transfers). -/
def Obligations.OnlyThreeInstructionsWriteI : Prop :=
  ∀ (i : Instr) (s t : State), exec i s = .next t →
    (∀ nnn, i ≠ .ldI nnn) → (∀ x, i ≠ .addI x) → (∀ x, i ≠ .ldFont x) → t.i = s.i

/-- A store into the program is seen by the very next fetch: after `Fx55` or `Fx33` the fetch at the next `PC` reads the
bytes as last written, the lower address in the high byte, whether the store covers both bytes of that word, one of
them or none (20_memory.md R63, by the spec's decision D19). Memory is in canonical form, which every step keeps
(StepKeepsTheStateInRange). -/
def Obligations.StoredWordIsFetchedNext : Prop :=
  ∀ (x : Reg) (s : State), Memory.wf s.font s.mem → s.pc.toNat % 2 = 0 → s.pc.toNat + 2 ≤ 0xFFE →
    (s.i.toNat + x.val ≤ 0xFFF → ∃ t w, exec (.storeRegs x) s = .next t ∧ t.pc = s.pc + 2 ∧ t.fetch = .ok w ∧
      w.toNat = (s.byteAfterStoreRegs x (s.pc.toNat + 2)).toNat * 256 +
        (s.byteAfterStoreRegs x (s.pc.toNat + 3)).toNat) ∧
    (s.i.toNat + 2 ≤ 0xFFF → ∃ t w, exec (.ldBcd x) s = .next t ∧ t.pc = s.pc + 2 ∧ t.fetch = .ok w ∧
      w.toNat = (s.byteAfterBcd x (s.pc.toNat + 2)).toNat * 256 + (s.byteAfterBcd x (s.pc.toNat + 3)).toNat)

/-! ## Keys and timers -/

/-- `Ex9E` and `ExA1`: with `V[x]` at most 0xF they test the level of that key, skipping on pressed and on not pressed;
with a greater `V[x]` they raise `KeyIndexOutOfRange` with no effect (45_keys_timers.md R220 to R222, by the spec's
decisions D12 and D29). -/
def Obligations.KeySkipsTestTheKeyLevel : Prop :=
  Encodes 0xE09E 0xF0FF (fun w => .skp (fieldX w)) ∧
  Encodes 0xE0A1 0xF0FF (fun w => .sknp (fieldX w)) ∧
  ∀ (x : Reg) (s : State),
    ((s.reg x).toNat ≤ 0xF →
      exec (.skp x) s =
        .next { s with pc := if s.keys.getLsbD (s.reg x).toNat = true then s.pc + 4 else s.pc + 2 } ∧
      exec (.sknp x) s =
        .next { s with pc := if s.keys.getLsbD (s.reg x).toNat = true then s.pc + 2 else s.pc + 4 }) ∧
    ((s.reg x).toNat > 0xF →
      Raises (.skp x) s .keyIndexOutOfRange (some (s.reg x).toNat) ∧
      Raises (.sknp x) s .keyIndexOutOfRange (some (s.reg x).toNat))

/-- `Fx0A` enters the wait for its register, moves `PC` past itself, and writes no register (45_keys_timers.md R223). -/
def Obligations.WaitForKeyEntersTheWait : Prop :=
  Encodes 0xF00A 0xF0FF (fun w => .ldVxKey (fieldX w)) ∧
  ∀ (x : Reg) (s : State), ∃ t, exec (.ldVxKey x) s = .next t ∧ t.rs = .awaitingKey x ∧ t.pc = s.pc + 2 ∧
    SameExcept [.run, .pc] s t

/-- `Fx07` reads the delay timer, `Fx15` writes it and `Fx18` writes the sound timer; nothing else changes but `PC`
(45_keys_timers.md R228 to R230, readings the spec derives). -/
def Obligations.TimerAccessMovesTheByte : Prop :=
  Encodes 0xF007 0xF0FF (fun w => .ldVxDt (fieldX w)) ∧
  Encodes 0xF015 0xF0FF (fun w => .ldDtVx (fieldX w)) ∧
  Encodes 0xF018 0xF0FF (fun w => .ldStVx (fieldX w)) ∧
  ∀ (x : Reg) (s : State),
    SetsRegisters (.ldVxDt x) s (fun r => if r = x then s.dt else s.reg r) ∧
    (∃ t, exec (.ldDtVx x) s = .next t ∧ t.dt = s.reg x ∧ t.pc = s.pc + 2 ∧ SameExcept [.delay, .pc] s t) ∧
    (∃ t, exec (.ldStVx x) s = .next t ∧ t.st = s.reg x ∧ t.pc = s.pc + 2 ∧ SameExcept [.sound, .pc] s t)

/-- A key event ends a wait with the lowest key of a non-zero mask, stored into the waiting register, and leaves `PC`;
with an empty mask, while running or once faulted it has no effect (45_keys_timers.md R225, R226, by the spec's
decision D14). -/
def Obligations.KeyEventStoresTheLowestKey : Prop :=
  ∀ (s : State) (mask : Word),
    (∀ r, s.rs = .awaitingKey r → mask ≠ 0 → ∃ (k : Fin 16) (t : State),
      mask.getLsbD k.val = true ∧ (∀ j < k.val, mask.getLsbD j = false) ∧
      s.operate (.keyEvent mask) = .next t ∧ t.rs = .running ∧
      (∀ q, (t.reg q).toNat = if q = r then k.val else (s.reg q).toNat) ∧ SameExcept [.regs, .run] s t) ∧
    (((∀ r, s.rs ≠ .awaitingKey r) ∨ mask = 0) → s.operate (.keyEvent mask) = .next s)

/-- Whatever steps, ticks and empty key events come, and whatever keys are held, a wait goes on: `PC`, the registers and
all else stay, and only the timers count down, one for each tick. A key event with a non-zero mask ends it: then the
key's index is in the waiting register, `PC` has not moved, and the CORE runs (45_keys_timers.md R224, the source's
scenario; `reset` would also end it, ResetGivesEveryFieldItsValue). That the lowest key of the mask is the one stored is
R226, by the spec's decision D14 (log entry 6); the runs are those of the model's schedule (log entry 1). -/
def Obligations.WaitLastsUntilAKeyEvent : Prop :=
  ∀ (s : State) (r : Reg) (ops : List HostOp) (mask : Word) (rest : List HostOp),
    s.rs = .awaitingKey r → s.schedule = ops ++ .keyEvent mask :: rest → mask ≠ 0 →
    (∀ op ∈ ops, op = .tickTimers ∨ op = .keyEvent 0 ∨ ∃ keys rnd, op = .step keys rnd) →
    (∃ t, Host.Core.run Sys2Proof.core ops.length s = .next t ∧
      t.dt.toNat = s.dt.toNat - ops.count .tickTimers ∧ t.st.toNat = s.st.toNat - ops.count .tickTimers ∧
      SameExcept [.delay, .sound] { s with schedule := .keyEvent mask :: rest } t) ∧
    ∃ (k : Fin 16) (u : State), Host.Core.run Sys2Proof.core (ops.length + 1) s = .next u ∧
      mask.getLsbD k.val = true ∧ (∀ j < k.val, mask.getLsbD j = false) ∧
      u.rs = .running ∧ (u.reg r).toNat = k.val ∧ u.pc = s.pc ∧ u.schedule = rest

/-- `tick_timers` lowers each timer that is not 0 by 1, in `Running` and while a key is awaited, and changes nothing
else; once faulted it changes nothing (60_exceptions.md R250). -/
def Obligations.TickLowersEachTimerByOne : Prop :=
  ∀ s : State, ∃ t, s.operate .tickTimers = .next t ∧
    ((∀ report, s.rs ≠ .faulted report) → t.dt.toNat = s.dt.toNat - 1 ∧ t.st.toNat = s.st.toNat - 1 ∧
      SameExcept [.delay, .sound] s t) ∧
    (∀ report, s.rs = .faulted report → t = s)

/-- No instruction but `Fx15` changes the delay timer and none but `Fx18` the sound timer; so, with
TickLowersEachTimerByOne, no timer ever rises otherwise (70_reset_and_hazards.md R278, which the spec derives). -/
def Obligations.TimersAreWrittenByTheirInstructionsOnly : Prop :=
  ∀ (i : Instr) (s t : State), exec i s = .next t →
    ((∀ x, i ≠ .ldDtVx x) → t.dt = s.dt) ∧ ((∀ x, i ≠ .ldStVx x) → t.st = s.st)

/-- The key levels are read by `Ex9E` and `ExA1` only and the random byte by `Cxkk` only: any other instruction does the
same whatever they are (60_exceptions.md R254 and 00_scope.md R17, by the spec's decision D1). -/
def Obligations.InputsAreReadByTheirInstructionsOnly : Prop :=
  ∀ (i : Instr) (s t : State) (keys : Word) (rnd : Byte), exec i s = .next t →
    ((∀ x, i ≠ .skp x) → (∀ x, i ≠ .sknp x) → exec i { s with keys := keys } = .next { t with keys := keys }) ∧
    ((∀ x kk, i ≠ .rnd x kk) → exec i { s with rnd := rnd } = .next { t with rnd := rnd })

/-- No instruction reads the sound timer: with another value in it every instruction does the same to everything else
and leaves that value there, but for `Fx18`, which does the same to the sound timer too (10_state.md R31 and
60_exceptions.md R252, which the spec derives). -/
def Obligations.NoInstructionReadsTheSoundTimer : Prop :=
  ∀ (i : Instr) (s t : State) (b : Byte), exec i s = .next t →
    ((∀ x, i ≠ .ldStVx x) → exec i { s with st := b } = .next { t with st := b }) ∧
    ((∃ x, i = .ldStVx x) → exec i { s with st := b } = .next t)

/-! ## Reset and invariants -/

/-- `reset(rom)` places byte `k` of the image at address 0x200 + `k`, in order, for every image that fits, up to exactly
3584 bytes; `PC` is where its first instruction stands, and the first two bytes are that instruction, the first byte the
high one (70_reset_and_hazards.md R271). -/
def Obligations.ResetPlacesTheImageAt0x200 : Prop :=
  ∀ (s : State) (rom : List Byte), rom.length ≤ 3584 →
    ∃ t, s.operate (.reset rom) = .next t ∧ t.pc = 0x200 ∧
      (∀ k (h : k < rom.length), t.readByte (0x200 + k) = rom[k]) ∧
      ∀ h : 1 < rom.length, ∃ w, t.fetch = .ok w ∧ w.toNat = (rom[0].toNat * 256 + rom[1].toNat)

/-- `reset(rom)` gives every piece of state its reset value from any state, faulted ones included: the font parameter
below 0x050, the image from 0x200, 0x00 elsewhere, zero registers and timers, an empty stack, a clear framebuffer, no
present event; an image of more than 3584 bytes yields no machine (10_state.md R37, R38 and 70_reset_and_hazards.md R270
to R272, by the spec's decisions D16, D17, D18, D22). The zeros are the values of log entry 4, those of the stack slots
too, which R37 calls unobservable; what stays is not CORE state (log entry 10). -/
def Obligations.ResetGivesEveryFieldItsValue : Prop :=
  ∀ (s : State) (rom : List Byte),
    (rom.length ≤ 3584 → ∃ t, s.operate (.reset rom) = .next t ∧ (∀ r, t.reg r = 0) ∧ t.i = 0 ∧ t.pc = 0x200 ∧
      t.sp.val = 0 ∧ (∀ k : Fin 16, t.stack[k.val] = 0) ∧ t.dt = 0 ∧ t.st = 0 ∧
      (∀ r c, FrameBuffer.pixel t.fb r c = false) ∧ t.rs = .running ∧
      (∀ a (h : a < 80), t.readByte a = s.font[a]) ∧ (∀ a, 80 ≤ a → a < 0x200 → t.readByte a = 0) ∧
      (∀ k (h : k < rom.length), t.readByte (0x200 + k) = rom[k]) ∧
      (∀ a, 0x200 + rom.length ≤ a → t.readByte a = 0) ∧
      t.presents = s.presents ∧ t.font = s.font ∧ t.keys = s.keys ∧ t.rnd = s.rnd ∧ t.schedule = s.schedule ∧
      t.draws = s.draws) ∧
    (rom.length > 3584 → s.operate (.reset rom) = .fault .romTooLarge)

/-- The state after reset is in range, with its memory in canonical form, and not halted: the base of the two invariants
(10_state.md section 10; its font is the model's choice, log entry 3). -/
def Obligations.ResetStateMeetsTheInvariants : Prop :=
  State.reset.Inv ∧ State.reset.FaultInv ∧ State.reset.safe ∧ State.reset.pc = 0x200

/-- Every step keeps the memory in canonical form, `PC` at most 0x10FE, and every live stack entry even and at most
0x1000, from any state that has them, whatever the host invokes (10_state.md R27, which the spec derives; the canonical
form is the model's choice, log entry 5). -/
def Obligations.StepKeepsTheStateInRange : Prop :=
  ∀ s t : State, s.Inv → step s = .next t → t.Inv

/-- Every step keeps the fault report true of the state: what R243's table says of the kind, the opcode, the address and
the info holds when the fault is taken and ever after; the opcode of an instruction's own fault decodes to an instruction
whose fault condition holds (60_exceptions.md R243 to R245, by the spec's decisions D5, D6, D7). -/
def Obligations.StepKeepsFaultReportsTrue : Prop :=
  ∀ s t : State, s.FaultInv → step s = .next t → t.FaultInv

/-- The canonical form makes equal memories equal data: two memories in that form that read alike everywhere are the
same list (log entry 5; 20_memory.md R57: a read returns the last value written). -/
def Obligations.CanonicalMemoriesThatReadAlikeAreEqual : Prop :=
  ∀ (font : Font) (m n : Memory), Memory.wf font m → Memory.wf font n →
    (∀ a, Memory.read font m a = Memory.read font n a) → m = n
end

