-- ==== Sys2Proof/Laws/Decode.lean ====
section
/-! SUPPORT. The fields of a word as numbers, the words of the six formats, and the masks of the opcode table in terms of
the fields. Proofs about decoding cite these and finish with omega. -/

namespace Sys2Proof

variable {w : Word}

/-! ## Fields -/

theorem fieldMajor_eq (w : Word) : fieldMajor w = w.toNat / 4096 := by
  have := w.isLt
  simp only [fieldMajor, BitVec.extractLsb'_toNat, Nat.shiftRight_eq_div_pow]
  omega

theorem fieldX_val (w : Word) : (fieldX w).val = w.toNat / 256 % 16 := by
  simp only [fieldX, BitVec.toFin_extractLsb', Fin.val_ofNat, Nat.shiftRight_eq_div_pow]

theorem fieldY_val (w : Word) : (fieldY w).val = w.toNat / 16 % 16 := by
  simp only [fieldY, BitVec.toFin_extractLsb', Fin.val_ofNat, Nat.shiftRight_eq_div_pow]

theorem fieldN_eq (w : Word) : fieldN w = w.toNat % 16 := by
  simp [fieldN]

theorem fieldKk_toNat (w : Word) : (fieldKk w).toNat = w.toNat % 256 := by
  simp [fieldKk]

theorem fieldNnn_toNat (w : Word) : (fieldNnn w).toNat = w.toNat % 4096 := by
  simp [fieldNnn]

@[simp] theorem highByte_toNat (w : Word) : (highByte w).toNat = w.toNat / 256 := by
  have := w.isLt
  simp only [highByte, BitVec.extractLsb'_toNat, Nat.shiftRight_eq_div_pow]
  omega

@[simp] theorem lowByte_toNat (w : Word) : (lowByte w).toNat = w.toNat % 256 := by
  simp [lowByte]

/-- The bytes of a word make the word (R53). -/
@[simp] theorem wordOfBytes_bytes (w : Word) : wordOfBytes (highByte w) (lowByte w) = w := by
  apply BitVec.eq_of_toNat_eq
  have := w.isLt
  simp only [wordOfBytes, BitVec.toNat_ofNat, highByte_toNat, lowByte_toNat]
  omega

/-! ## Formats (R72) -/

theorem wordNnn_toNat (p : Nat) (nnn : BitVec 12) (hp : p < 16) :
    (wordNnn p nnn).toNat = p * 4096 + nnn.toNat := by
  have := nnn.isLt
  simp only [wordNnn, BitVec.toNat_ofNat]
  omega

theorem wordXkk_toNat (p : Nat) (x : Reg) (kk : Byte) (hp : p < 16) :
    (wordXkk p x kk).toNat = p * 4096 + x.val * 256 + kk.toNat := by
  have := x.isLt
  have := kk.isLt
  simp only [wordXkk, BitVec.toNat_ofNat]
  omega

theorem wordXyn_toNat (p : Nat) (x y : Reg) (n : Nat) (hp : p < 16) (hn : n < 16) :
    (wordXyn p x y n).toNat = p * 4096 + x.val * 256 + y.val * 16 + n := by
  have := x.isLt
  have := y.isLt
  simp only [wordXyn, BitVec.toNat_ofNat]
  omega

/-- What the decoder dispatches on in a word of format `NNN`. -/
theorem fields_wordNnn (p : Nat) (nnn : BitVec 12) (hp : p < 16) :
    fieldMajor (wordNnn p nnn) = p ∧ fieldNnn (wordNnn p nnn) = nnn := by
  have := nnn.isLt
  refine ⟨?_, BitVec.eq_of_toNat_eq ?_⟩
  · rw [fieldMajor_eq, wordNnn_toNat p nnn hp]; omega
  · rw [fieldNnn_toNat, wordNnn_toNat p nnn hp]; omega

/-- What the decoder dispatches on in a word of format `XKK` or `X`. -/
theorem fields_wordXkk (p : Nat) (x : Reg) (kk : Byte) (hp : p < 16) :
    fieldMajor (wordXkk p x kk) = p ∧ fieldX (wordXkk p x kk) = x ∧ fieldKk (wordXkk p x kk) = kk := by
  have := x.isLt
  have := kk.isLt
  refine ⟨?_, Fin.ext ?_, BitVec.eq_of_toNat_eq ?_⟩
  · rw [fieldMajor_eq, wordXkk_toNat p x kk hp]; omega
  · rw [fieldX_val, wordXkk_toNat p x kk hp]; omega
  · rw [fieldKk_toNat, wordXkk_toNat p x kk hp]; omega

/-- What the decoder dispatches on in a word of format `XY` or `XYN`. -/
theorem fields_wordXyn (p : Nat) (x y : Reg) (n : Nat) (hp : p < 16) (hn : n < 16) :
    fieldMajor (wordXyn p x y n) = p ∧ fieldX (wordXyn p x y n) = x ∧ fieldY (wordXyn p x y n) = y ∧
      fieldN (wordXyn p x y n) = n := by
  have := x.isLt
  have := y.isLt
  refine ⟨?_, Fin.ext ?_, Fin.ext ?_, ?_⟩
  · rw [fieldMajor_eq, wordXyn_toNat p x y n hp hn]; omega
  · rw [fieldX_val, wordXyn_toNat p x y n hp hn]; omega
  · rw [fieldY_val, wordXyn_toNat p x y n hp hn]; omega
  · rw [fieldN_eq, wordXyn_toNat p x y n hp hn]; omega

/-! ## The masks of the opcode table -/

/-- A word under the mask 0xF000 is its top field. -/
theorem and_maskF000 (w : Word) : (w &&& 0xF000).toNat = w.toNat / 4096 * 4096 := by
  have hw := w.isLt
  have h : w &&& (0xF000 : Word) = (w >>> 12) <<< 12 := by
    apply BitVec.eq_of_getLsbD_eq
    intro j hj
    rw [BitVec.getLsbD_and, BitVec.getLsbD_shiftLeft, BitVec.getLsbD_ushiftRight]
    interval_cases j <;> simp (decide := true)
  rw [h, BitVec.toNat_shiftLeft, BitVec.toNat_ushiftRight, Nat.shiftRight_eq_div_pow, Nat.shiftLeft_eq]
  omega

/-- A word under the mask 0x000F is its lowest field. -/
theorem and_mask000F (w : Word) : (w &&& 0x000F).toNat = w.toNat % 16 := by
  rw [BitVec.toNat_and]
  exact Nat.and_two_pow_sub_one_eq_mod w.toNat 4

/-- A word under the mask 0x00FF is its low byte. -/
theorem and_mask00FF (w : Word) : (w &&& 0x00FF).toNat = w.toNat % 256 := by
  rw [BitVec.toNat_and]
  exact Nat.and_two_pow_sub_one_eq_mod w.toNat 8

/-- A mask in two disjoint parts adds up. -/
theorem and_or_disjoint (w a b : Word) (h : a &&& b = 0) :
    (w &&& (a ||| b)).toNat = (w &&& a).toNat + (w &&& b).toNat := by
  have hdisj : (w &&& a) &&& (w &&& b) = 0 := by
    rw [show (w &&& a) &&& (w &&& b) = w &&& (a &&& b) by
      apply BitVec.eq_of_getLsbD_eq; intro j hj; simp only [BitVec.getLsbD_and]; cases w.getLsbD j <;> simp, h]
    simp
  rw [show w &&& (a ||| b) = (w &&& a) ||| (w &&& b) by
    apply BitVec.eq_of_getLsbD_eq; intro j hj; simp only [BitVec.getLsbD_and, BitVec.getLsbD_or]; cases w.getLsbD j <;> simp,
    ← BitVec.add_eq_or_of_and_eq_zero _ _ hdisj, BitVec.toNat_add_of_and_eq_zero hdisj]

/-- A word under the mask 0xF00F is its top and lowest fields. -/
theorem and_maskF00F (w : Word) : (w &&& 0xF00F).toNat = w.toNat / 4096 * 4096 + w.toNat % 16 := by
  rw [show (0xF00F : Word) = 0xF000 ||| 0x000F from rfl, and_or_disjoint w _ _ rfl, and_maskF000, and_mask000F]

/-- A word under the mask 0xF0FF is its top field and its low byte. -/
theorem and_maskF0FF (w : Word) : (w &&& 0xF0FF).toNat = w.toNat / 4096 * 4096 + w.toNat % 256 := by
  rw [show (0xF0FF : Word) = 0xF000 ||| 0x00FF from rfl, and_or_disjoint w _ _ rfl, and_maskF000, and_mask00FF]

/-- A word under the mask 0xFFFF is itself. -/
theorem and_maskFFFF (w : Word) : w &&& 0xFFFF = w := by
  rw [show (0xFFFF : Word) = BitVec.allOnes 16 from rfl, BitVec.and_allOnes]

end Sys2Proof
end

