-- ==== Sys2Proof/Laws/State.lean ====
section
/-! SUPPORT. What each update of the state does to each field, by rfl; and reading a register after writing one. -/

namespace Sys2Proof.Machine

/-! ## `State.setReg` -/

@[simp] theorem State.setReg_v (s : State) (x : Reg) (b : Byte) : (s.setReg x b).v = s.v.set x.val b := rfl
@[simp] theorem State.setReg_i (s : State) (x : Reg) (b : Byte) : (s.setReg x b).i = s.i := rfl
@[simp] theorem State.setReg_pc (s : State) (x : Reg) (b : Byte) : (s.setReg x b).pc = s.pc := rfl
@[simp] theorem State.setReg_stack (s : State) (x : Reg) (b : Byte) : (s.setReg x b).stack = s.stack := rfl
@[simp] theorem State.setReg_sp (s : State) (x : Reg) (b : Byte) : (s.setReg x b).sp = s.sp := rfl
@[simp] theorem State.setReg_dt (s : State) (x : Reg) (b : Byte) : (s.setReg x b).dt = s.dt := rfl
@[simp] theorem State.setReg_st (s : State) (x : Reg) (b : Byte) : (s.setReg x b).st = s.st := rfl
@[simp] theorem State.setReg_fb (s : State) (x : Reg) (b : Byte) : (s.setReg x b).fb = s.fb := rfl
@[simp] theorem State.setReg_rs (s : State) (x : Reg) (b : Byte) : (s.setReg x b).rs = s.rs := rfl
@[simp] theorem State.setReg_mem (s : State) (x : Reg) (b : Byte) : (s.setReg x b).mem = s.mem := rfl
@[simp] theorem State.setReg_font (s : State) (x : Reg) (b : Byte) : (s.setReg x b).font = s.font := rfl
@[simp] theorem State.setReg_keys (s : State) (x : Reg) (b : Byte) : (s.setReg x b).keys = s.keys := rfl
@[simp] theorem State.setReg_rnd (s : State) (x : Reg) (b : Byte) : (s.setReg x b).rnd = s.rnd := rfl
@[simp] theorem State.setReg_schedule (s : State) (x : Reg) (b : Byte) : (s.setReg x b).schedule = s.schedule := rfl
@[simp] theorem State.setReg_draws (s : State) (x : Reg) (b : Byte) : (s.setReg x b).draws = s.draws := rfl
@[simp] theorem State.setReg_presents (s : State) (x : Reg) (b : Byte) : (s.setReg x b).presents = s.presents := rfl

/-! ## `State.advance` -/

@[simp] theorem State.advance_v (s : State) : (s.advance).v = s.v := rfl
@[simp] theorem State.advance_i (s : State) : (s.advance).i = s.i := rfl
@[simp] theorem State.advance_pc (s : State) : (s.advance).pc = s.pc + 2 := rfl
@[simp] theorem State.advance_stack (s : State) : (s.advance).stack = s.stack := rfl
@[simp] theorem State.advance_sp (s : State) : (s.advance).sp = s.sp := rfl
@[simp] theorem State.advance_dt (s : State) : (s.advance).dt = s.dt := rfl
@[simp] theorem State.advance_st (s : State) : (s.advance).st = s.st := rfl
@[simp] theorem State.advance_fb (s : State) : (s.advance).fb = s.fb := rfl
@[simp] theorem State.advance_rs (s : State) : (s.advance).rs = s.rs := rfl
@[simp] theorem State.advance_mem (s : State) : (s.advance).mem = s.mem := rfl
@[simp] theorem State.advance_font (s : State) : (s.advance).font = s.font := rfl
@[simp] theorem State.advance_keys (s : State) : (s.advance).keys = s.keys := rfl
@[simp] theorem State.advance_rnd (s : State) : (s.advance).rnd = s.rnd := rfl
@[simp] theorem State.advance_schedule (s : State) : (s.advance).schedule = s.schedule := rfl
@[simp] theorem State.advance_draws (s : State) : (s.advance).draws = s.draws := rfl
@[simp] theorem State.advance_presents (s : State) : (s.advance).presents = s.presents := rfl

/-! ## `State.jumpTo` -/

@[simp] theorem State.jumpTo_v (s : State) (a : Word) : (s.jumpTo a).v = s.v := rfl
@[simp] theorem State.jumpTo_i (s : State) (a : Word) : (s.jumpTo a).i = s.i := rfl
@[simp] theorem State.jumpTo_pc (s : State) (a : Word) : (s.jumpTo a).pc = a := rfl
@[simp] theorem State.jumpTo_stack (s : State) (a : Word) : (s.jumpTo a).stack = s.stack := rfl
@[simp] theorem State.jumpTo_sp (s : State) (a : Word) : (s.jumpTo a).sp = s.sp := rfl
@[simp] theorem State.jumpTo_dt (s : State) (a : Word) : (s.jumpTo a).dt = s.dt := rfl
@[simp] theorem State.jumpTo_st (s : State) (a : Word) : (s.jumpTo a).st = s.st := rfl
@[simp] theorem State.jumpTo_fb (s : State) (a : Word) : (s.jumpTo a).fb = s.fb := rfl
@[simp] theorem State.jumpTo_rs (s : State) (a : Word) : (s.jumpTo a).rs = s.rs := rfl
@[simp] theorem State.jumpTo_mem (s : State) (a : Word) : (s.jumpTo a).mem = s.mem := rfl
@[simp] theorem State.jumpTo_font (s : State) (a : Word) : (s.jumpTo a).font = s.font := rfl
@[simp] theorem State.jumpTo_keys (s : State) (a : Word) : (s.jumpTo a).keys = s.keys := rfl
@[simp] theorem State.jumpTo_rnd (s : State) (a : Word) : (s.jumpTo a).rnd = s.rnd := rfl
@[simp] theorem State.jumpTo_schedule (s : State) (a : Word) : (s.jumpTo a).schedule = s.schedule := rfl
@[simp] theorem State.jumpTo_draws (s : State) (a : Word) : (s.jumpTo a).draws = s.draws := rfl
@[simp] theorem State.jumpTo_presents (s : State) (a : Word) : (s.jumpTo a).presents = s.presents := rfl

/-! ## `State.skipIf` -/

@[simp] theorem State.skipIf_v (s : State) (c : Bool) : (s.skipIf c).v = s.v := rfl
@[simp] theorem State.skipIf_i (s : State) (c : Bool) : (s.skipIf c).i = s.i := rfl
@[simp] theorem State.skipIf_pc (s : State) (c : Bool) : (s.skipIf c).pc = if c then s.pc + 2 else s.pc := rfl
@[simp] theorem State.skipIf_stack (s : State) (c : Bool) : (s.skipIf c).stack = s.stack := rfl
@[simp] theorem State.skipIf_sp (s : State) (c : Bool) : (s.skipIf c).sp = s.sp := rfl
@[simp] theorem State.skipIf_dt (s : State) (c : Bool) : (s.skipIf c).dt = s.dt := rfl
@[simp] theorem State.skipIf_st (s : State) (c : Bool) : (s.skipIf c).st = s.st := rfl
@[simp] theorem State.skipIf_fb (s : State) (c : Bool) : (s.skipIf c).fb = s.fb := rfl
@[simp] theorem State.skipIf_rs (s : State) (c : Bool) : (s.skipIf c).rs = s.rs := rfl
@[simp] theorem State.skipIf_mem (s : State) (c : Bool) : (s.skipIf c).mem = s.mem := rfl
@[simp] theorem State.skipIf_font (s : State) (c : Bool) : (s.skipIf c).font = s.font := rfl
@[simp] theorem State.skipIf_keys (s : State) (c : Bool) : (s.skipIf c).keys = s.keys := rfl
@[simp] theorem State.skipIf_rnd (s : State) (c : Bool) : (s.skipIf c).rnd = s.rnd := rfl
@[simp] theorem State.skipIf_schedule (s : State) (c : Bool) : (s.skipIf c).schedule = s.schedule := rfl
@[simp] theorem State.skipIf_draws (s : State) (c : Bool) : (s.skipIf c).draws = s.draws := rfl
@[simp] theorem State.skipIf_presents (s : State) (c : Bool) : (s.skipIf c).presents = s.presents := rfl

/-! ## `State.storeBytes` -/

@[simp] theorem State.storeBytes_v (s : State) (a : Nat) (bs : List Byte) : (s.storeBytes a bs).v = s.v := rfl
@[simp] theorem State.storeBytes_i (s : State) (a : Nat) (bs : List Byte) : (s.storeBytes a bs).i = s.i := rfl
@[simp] theorem State.storeBytes_pc (s : State) (a : Nat) (bs : List Byte) : (s.storeBytes a bs).pc = s.pc := rfl
@[simp] theorem State.storeBytes_stack (s : State) (a : Nat) (bs : List Byte) : (s.storeBytes a bs).stack = s.stack := rfl
@[simp] theorem State.storeBytes_sp (s : State) (a : Nat) (bs : List Byte) : (s.storeBytes a bs).sp = s.sp := rfl
@[simp] theorem State.storeBytes_dt (s : State) (a : Nat) (bs : List Byte) : (s.storeBytes a bs).dt = s.dt := rfl
@[simp] theorem State.storeBytes_st (s : State) (a : Nat) (bs : List Byte) : (s.storeBytes a bs).st = s.st := rfl
@[simp] theorem State.storeBytes_fb (s : State) (a : Nat) (bs : List Byte) : (s.storeBytes a bs).fb = s.fb := rfl
@[simp] theorem State.storeBytes_rs (s : State) (a : Nat) (bs : List Byte) : (s.storeBytes a bs).rs = s.rs := rfl
@[simp] theorem State.storeBytes_mem (s : State) (a : Nat) (bs : List Byte) : (s.storeBytes a bs).mem = Memory.writeBytes s.font s.mem a bs := rfl
@[simp] theorem State.storeBytes_font (s : State) (a : Nat) (bs : List Byte) : (s.storeBytes a bs).font = s.font := rfl
@[simp] theorem State.storeBytes_keys (s : State) (a : Nat) (bs : List Byte) : (s.storeBytes a bs).keys = s.keys := rfl
@[simp] theorem State.storeBytes_rnd (s : State) (a : Nat) (bs : List Byte) : (s.storeBytes a bs).rnd = s.rnd := rfl
@[simp] theorem State.storeBytes_schedule (s : State) (a : Nat) (bs : List Byte) : (s.storeBytes a bs).schedule = s.schedule := rfl
@[simp] theorem State.storeBytes_draws (s : State) (a : Nat) (bs : List Byte) : (s.storeBytes a bs).draws = s.draws := rfl
@[simp] theorem State.storeBytes_presents (s : State) (a : Nat) (bs : List Byte) : (s.storeBytes a bs).presents = s.presents := rfl

/-! ## `State.present` -/

@[simp] theorem State.present_v (s : State) : (s.present).v = s.v := rfl
@[simp] theorem State.present_i (s : State) : (s.present).i = s.i := rfl
@[simp] theorem State.present_pc (s : State) : (s.present).pc = s.pc := rfl
@[simp] theorem State.present_stack (s : State) : (s.present).stack = s.stack := rfl
@[simp] theorem State.present_sp (s : State) : (s.present).sp = s.sp := rfl
@[simp] theorem State.present_dt (s : State) : (s.present).dt = s.dt := rfl
@[simp] theorem State.present_st (s : State) : (s.present).st = s.st := rfl
@[simp] theorem State.present_fb (s : State) : (s.present).fb = s.fb := rfl
@[simp] theorem State.present_rs (s : State) : (s.present).rs = s.rs := rfl
@[simp] theorem State.present_mem (s : State) : (s.present).mem = s.mem := rfl
@[simp] theorem State.present_font (s : State) : (s.present).font = s.font := rfl
@[simp] theorem State.present_keys (s : State) : (s.present).keys = s.keys := rfl
@[simp] theorem State.present_rnd (s : State) : (s.present).rnd = s.rnd := rfl
@[simp] theorem State.present_schedule (s : State) : (s.present).schedule = s.schedule := rfl
@[simp] theorem State.present_draws (s : State) : (s.present).draws = s.draws := rfl
@[simp] theorem State.present_presents (s : State) : (s.present).presents = s.fb :: s.presents := rfl

/-! ## `State.setRegFlag` -/

@[simp] theorem State.setRegFlag_v (s : State) (x : Reg) (b f : Byte) : (s.setRegFlag x b f).v = (s.v.set x.val b).set VF.val f := rfl
@[simp] theorem State.setRegFlag_i (s : State) (x : Reg) (b f : Byte) : (s.setRegFlag x b f).i = s.i := rfl
@[simp] theorem State.setRegFlag_pc (s : State) (x : Reg) (b f : Byte) : (s.setRegFlag x b f).pc = s.pc := rfl
@[simp] theorem State.setRegFlag_stack (s : State) (x : Reg) (b f : Byte) : (s.setRegFlag x b f).stack = s.stack := rfl
@[simp] theorem State.setRegFlag_sp (s : State) (x : Reg) (b f : Byte) : (s.setRegFlag x b f).sp = s.sp := rfl
@[simp] theorem State.setRegFlag_dt (s : State) (x : Reg) (b f : Byte) : (s.setRegFlag x b f).dt = s.dt := rfl
@[simp] theorem State.setRegFlag_st (s : State) (x : Reg) (b f : Byte) : (s.setRegFlag x b f).st = s.st := rfl
@[simp] theorem State.setRegFlag_fb (s : State) (x : Reg) (b f : Byte) : (s.setRegFlag x b f).fb = s.fb := rfl
@[simp] theorem State.setRegFlag_rs (s : State) (x : Reg) (b f : Byte) : (s.setRegFlag x b f).rs = s.rs := rfl
@[simp] theorem State.setRegFlag_mem (s : State) (x : Reg) (b f : Byte) : (s.setRegFlag x b f).mem = s.mem := rfl
@[simp] theorem State.setRegFlag_font (s : State) (x : Reg) (b f : Byte) : (s.setRegFlag x b f).font = s.font := rfl
@[simp] theorem State.setRegFlag_keys (s : State) (x : Reg) (b f : Byte) : (s.setRegFlag x b f).keys = s.keys := rfl
@[simp] theorem State.setRegFlag_rnd (s : State) (x : Reg) (b f : Byte) : (s.setRegFlag x b f).rnd = s.rnd := rfl
@[simp] theorem State.setRegFlag_schedule (s : State) (x : Reg) (b f : Byte) : (s.setRegFlag x b f).schedule = s.schedule := rfl
@[simp] theorem State.setRegFlag_draws (s : State) (x : Reg) (b f : Byte) : (s.setRegFlag x b f).draws = s.draws := rfl
@[simp] theorem State.setRegFlag_presents (s : State) (x : Reg) (b f : Byte) : (s.setRegFlag x b f).presents = s.presents := rfl

/-! ## Registers and bytes -/

/-- A register after a register write. -/
@[simp] theorem State.reg_setReg (s : State) (x r : Reg) (b : Byte) :
    (s.setReg x b).reg r = if r = x then b else s.reg r := by
  unfold State.reg State.setReg
  simp only [Vector.getElem_set, Fin.ext_iff, eq_comm]

/-- A register after a result and its flag: the flag is in `VF`, whatever `x` is (R172). -/
@[simp] theorem State.reg_setRegFlag (s : State) (x r : Reg) (b f : Byte) :
    (s.setRegFlag x b f).reg r = if r = VF then f else if r = x then b else s.reg r := by
  simp [State.setRegFlag]

/-- Registers are the vector `v` and nothing else. -/
theorem State.reg_congr {s t : State} (h : t.v = s.v) (r : Reg) : t.reg r = s.reg r := by
  simp [State.reg, h]

/-- A byte of memory depends on the font and the cells only. -/
theorem State.readByte_congr {s t : State} (hf : t.font = s.font) (hm : t.mem = s.mem) (a : Nat) :
    t.readByte a = s.readByte a := by
  simp [State.readByte, hf, hm]

@[simp] theorem State.readByte_setReg (s : State) (x : Reg) (b : Byte) (k : Nat) : (s.setReg x b).readByte k = s.readByte k := rfl
@[simp] theorem State.reg_advance (s : State) (r : Reg) : (s.advance).reg r = s.reg r := rfl
@[simp] theorem State.readByte_advance (s : State) (k : Nat) : (s.advance).readByte k = s.readByte k := rfl
@[simp] theorem State.reg_jumpTo (s : State) (a : Word) (r : Reg) : (s.jumpTo a).reg r = s.reg r := rfl
@[simp] theorem State.readByte_jumpTo (s : State) (a : Word) (k : Nat) : (s.jumpTo a).readByte k = s.readByte k := rfl
@[simp] theorem State.reg_skipIf (s : State) (c : Bool) (r : Reg) : (s.skipIf c).reg r = s.reg r := rfl
@[simp] theorem State.readByte_skipIf (s : State) (c : Bool) (k : Nat) : (s.skipIf c).readByte k = s.readByte k := rfl
@[simp] theorem State.reg_storeBytes (s : State) (a : Nat) (bs : List Byte) (r : Reg) : (s.storeBytes a bs).reg r = s.reg r := rfl
@[simp] theorem State.reg_present (s : State) (r : Reg) : (s.present).reg r = s.reg r := rfl
@[simp] theorem State.readByte_present (s : State) (k : Nat) : (s.present).readByte k = s.readByte k := rfl
@[simp] theorem State.readByte_setRegFlag (s : State) (x : Reg) (b f : Byte) (k : Nat) : (s.setRegFlag x b f).readByte k = s.readByte k := rfl

end Sys2Proof.Machine
end

