-- ==== Sys2Proof/Laws/Frame.lean ====
section
/-! SUPPORT. The framebuffer: what drawing a bit, a row and a sprite do to every pixel and to the collision mark. Proofs
about `Dxyn` cite the last two theorems and do not unfold the loops. -/

namespace Sys2Proof.Machine

variable {fb : FrameBuffer} {row col r k : Nat}

/-! ## One pixel -/

/-- Every pixel of the grid after a toggle. -/
theorem FrameBuffer.pixel_toggle (hr : r < 32) (hk : k < 64) :
    FrameBuffer.pixel (FrameBuffer.toggle fb row col) r k =
      (FrameBuffer.pixel fb r k ^^ decide (r = row ∧ k = col)) := by
  unfold FrameBuffer.toggle
  by_cases h : row < 32 ∧ col < 64
  · simp only [dif_pos h, FrameBuffer.pixel, dif_pos (And.intro hr hk), Vector.getElem_set]
    by_cases hrow : row = r
    · subst hrow
      by_cases hcol : col = k
      · subst hcol; simp
      · simp [hcol, Ne.symm hcol]
    · simp [hrow, Ne.symm hrow]
  · rw [dif_neg h]
    have : ¬ (r = row ∧ k = col) := by omega
    simp [this]

/-- Outside the grid there is no pixel. -/
theorem FrameBuffer.pixel_outside (h : ¬ (r < 32 ∧ k < 64)) : FrameBuffer.pixel fb r k = false := dif_neg h

/-- Framebuffers with equal pixels are equal. -/
theorem FrameBuffer.ext_pixel {fb fb' : FrameBuffer}
    (h : ∀ r k, r < 32 → k < 64 → FrameBuffer.pixel fb r k = FrameBuffer.pixel fb' r k) : fb = fb' := by
  apply Vector.ext
  intro r hr
  apply Vector.ext
  intro k hk
  have := h r k hr hk
  simpa [FrameBuffer.pixel, hr, hk] using this

/-- The blank framebuffer has no pixel set. -/
@[simp] theorem FrameBuffer.pixel_blank : FrameBuffer.pixel blankFrame r k = false := by
  unfold FrameBuffer.pixel
  split <;> simp

/-! ## One bit -/

/-- Every pixel of the grid after drawing one bit. -/
theorem Canvas.pixel_drawBit (c : Canvas) (bit : Bool) (hr : r < 32) (hk : k < 64) :
    FrameBuffer.pixel (c.drawBit row col bit).fb r k =
      (FrameBuffer.pixel c.fb r k ^^ (bit && decide (r = row ∧ k = col))) := by
  cases bit
  · simp [Canvas.drawBit]
  · simp only [Canvas.drawBit, if_true, Bool.true_and]
    exact FrameBuffer.pixel_toggle hr hk

/-- The collision mark after drawing one bit. -/
theorem Canvas.hit_drawBit (c : Canvas) (bit : Bool) :
    (c.drawBit row col bit).hit = (c.hit || (bit && FrameBuffer.pixel c.fb row col)) := by
  cases bit <;> simp [Canvas.drawBit]

/-! ## One row -/

/-- The first `n` bits of a sprite row. -/
def Canvas.drawBits (c : Canvas) (row col : Nat) (b : Byte) (n : Nat) : Canvas :=
  (List.range n).foldl (fun c j => c.drawBit row (col + j) (b.getLsbD (7 - j))) c

theorem Canvas.drawByte_eq (c : Canvas) (b : Byte) : c.drawByte row col b = c.drawBits row col b 8 := rfl

theorem Canvas.drawBits_succ (c : Canvas) (b : Byte) (n : Nat) :
    c.drawBits row col b (n + 1) = (c.drawBits row col b n).drawBit row (col + n) (b.getLsbD (7 - n)) := by
  simp [Canvas.drawBits, List.range_succ, List.foldl_append]

/-- Every pixel of the grid after drawing the first `n` bits of a row. -/
theorem Canvas.pixel_drawBits (c : Canvas) (b : Byte) (n : Nat) (hr : r < 32) (hk : k < 64) :
    FrameBuffer.pixel (c.drawBits row col b n).fb r k =
      (FrameBuffer.pixel c.fb r k ^^
        (decide (r = row ∧ col ≤ k ∧ k < col + n) && b.getLsbD (7 - (k - col)))) := by
  induction n with
  | zero =>
    have : ¬ (r = row ∧ col ≤ k ∧ k < col + 0) := by omega
    simp only [this, decide_false, Bool.false_and, Bool.xor_false]
    rfl
  | succ n ih =>
    rw [Canvas.drawBits_succ, Canvas.pixel_drawBit _ _ hr hk, ih]
    by_cases hnow : r = row ∧ k = col + n
    · obtain ⟨rfl, rfl⟩ := hnow
      simp
    · have hiff : (r = row ∧ col ≤ k ∧ k < col + (n + 1)) ↔ (r = row ∧ col ≤ k ∧ k < col + n) := by omega
      simp [hnow, hiff]

/-- The collision mark after drawing the first `n` bits of a row: the pixels it tests are those the row began with. -/
theorem Canvas.hit_drawBits (c : Canvas) (b : Byte) (n : Nat) :
    (c.drawBits row col b n).hit = true ↔
      c.hit = true ∨ ∃ j, j < n ∧ b.getLsbD (7 - j) = true ∧ FrameBuffer.pixel c.fb row (col + j) = true := by
  induction n with
  | zero => simp [Canvas.drawBits]
  | succ n ih =>
    rw [Canvas.drawBits_succ, Canvas.hit_drawBit]
    have hpix : FrameBuffer.pixel (c.drawBits row col b n).fb row (col + n) = FrameBuffer.pixel c.fb row (col + n) := by
      by_cases hin : row < 32 ∧ col + n < 64
      · rw [Canvas.pixel_drawBits c b n hin.1 hin.2]; simp
      · rw [FrameBuffer.pixel_outside hin, FrameBuffer.pixel_outside hin]
    rw [Bool.or_eq_true, Bool.and_eq_true, hpix, ih]
    constructor
    · rintro ((h | ⟨j, hj, hb, hp⟩) | ⟨hb, hp⟩)
      · exact .inl h
      · exact .inr ⟨j, by omega, hb, hp⟩
      · exact .inr ⟨n, by omega, hb, hp⟩
    · rintro (h | ⟨j, hj, hb, hp⟩)
      · exact .inl (.inl h)
      · rcases Nat.lt_succ_iff_lt_or_eq.1 hj with hj | rfl
        · exact .inl (.inr ⟨j, hj, hb, hp⟩)
        · exact .inr ⟨hb, hp⟩

/-! ## A sprite -/

/-- The sprite bit that lands on a pixel, for a sprite drawn with its origin at `row`, `col`. -/
def spriteBit (bs : List Byte) (row col r k : Nat) : Bool :=
  decide (row ≤ r ∧ r < row + bs.length ∧ col ≤ k ∧ k < col + 8) && (bs.getD (r - row) 0).getLsbD (7 - (k - col))

/-- A sprite's bits are those of its first row, or of the rest drawn one row lower. -/
theorem spriteBit_cons (b : Byte) (bs : List Byte) :
    spriteBit (b :: bs) row col r k =
      ((decide (r = row ∧ col ≤ k ∧ k < col + 8) && b.getLsbD (7 - (k - col))) ^^ spriteBit bs (row + 1) col r k) := by
  unfold spriteBit
  rcases Nat.lt_trichotomy r row with h | rfl | h
  · have h1 : ¬ (row ≤ r ∧ r < row + (b :: bs).length ∧ col ≤ k ∧ k < col + 8) := by omega
    have h2 : ¬ (r = row ∧ col ≤ k ∧ k < col + 8) := by omega
    have h3 : ¬ (row + 1 ≤ r ∧ r < row + 1 + bs.length ∧ col ≤ k ∧ k < col + 8) := by omega
    simp only [h1, h2, h3, decide_false, Bool.false_and, Bool.xor_false]
  · simp
  · obtain ⟨d, rfl⟩ : ∃ d, r = row + 1 + d := ⟨r - (row + 1), by omega⟩
    have h2 : ¬ (row + 1 + d = row ∧ col ≤ k ∧ k < col + 8) := by omega
    have h4 : row + 1 + d - row = d + 1 := by omega
    have h5 : row + 1 + d - (row + 1) = d := by omega
    have h6 : (row ≤ row + 1 + d ∧ row + 1 + d < row + (b :: bs).length ∧ col ≤ k ∧ k < col + 8) ↔
        (row + 1 ≤ row + 1 + d ∧ row + 1 + d < row + 1 + bs.length ∧ col ≤ k ∧ k < col + 8) := by
      simp only [List.length_cons]; omega
    simp only [h2, h4, h5, h6, decide_false, Bool.false_and, Bool.false_xor, List.getD_cons_succ]

/-- A sprite's first row on the framebuffer does not touch the rows of the rest. -/
theorem spriteBit_below {bs : List Byte} (h : spriteBit bs (row + 1) col r k = true) : r ≠ row := by
  simp only [spriteBit, Bool.and_eq_true, decide_eq_true_eq] at h
  omega

/-- Every pixel of the grid after drawing a sprite: XORed with the sprite bit that lands on it (R124, R125). -/
theorem Canvas.pixel_drawSprite (c : Canvas) (bs : List Byte) (hr : r < 32) (hk : k < 64) :
    FrameBuffer.pixel (c.drawSprite row col bs).fb r k =
      (FrameBuffer.pixel c.fb r k ^^ spriteBit bs row col r k) := by
  induction bs generalizing c row with
  | nil =>
    have : ¬ (row ≤ r ∧ r < row + ([] : List Byte).length ∧ col ≤ k ∧ k < col + 8) := by simp; omega
    simp only [spriteBit, this, decide_false, Bool.false_and, Bool.xor_false]
    rfl
  | cons b bs ih =>
    rw [Canvas.drawSprite, ih, Canvas.drawByte_eq, Canvas.pixel_drawBits c b 8 hr hk, spriteBit_cons, Bool.xor_assoc]

/-- The collision mark after drawing a sprite: set before, or some sprite bit found its pixel of the grid set in the
framebuffer the drawing began with (R126). -/
theorem Canvas.hit_drawSprite (c : Canvas) (bs : List Byte) :
    (c.drawSprite row col bs).hit = true ↔
      c.hit = true ∨ ∃ r k, r < 32 ∧ k < 64 ∧ spriteBit bs row col r k = true ∧ FrameBuffer.pixel c.fb r k = true := by
  induction bs generalizing c row with
  | nil =>
    refine ⟨.inl, ?_⟩
    rintro (h | ⟨r, k, -, -, h, -⟩)
    · exact h
    · simp only [spriteBit, List.length_nil, Bool.and_eq_true, decide_eq_true_eq] at h
      omega
  | cons b bs ih =>
    rw [Canvas.drawSprite, ih, Canvas.drawByte_eq, Canvas.hit_drawBits]
    constructor
    · rintro ((h | ⟨j, hj, hb, hp⟩) | ⟨r, k, hr, hk, hs, hp⟩)
      · exact .inl h
      · have hin : row < 32 ∧ col + j < 64 := by
          by_contra hout
          rw [FrameBuffer.pixel_outside hout] at hp
          cases hp
        refine .inr ⟨row, col + j, hin.1, hin.2, ?_, hp⟩
        simp [spriteBit, hj, hb]
      · refine .inr ⟨r, k, hr, hk, ?_, ?_⟩
        · have hne := spriteBit_below hs
          have : ¬ (r = row ∧ col ≤ k ∧ k < col + 8) := by omega
          rw [spriteBit_cons, hs]; simp [this]
        · rw [Canvas.pixel_drawBits c b 8 hr hk] at hp
          have hne := spriteBit_below hs
          have : ¬ (r = row ∧ col ≤ k ∧ k < col + 8) := by omega
          simpa [this] using hp
    · rintro (h | ⟨r, k, hr, hk, hs, hp⟩)
      · exact .inl (.inl h)
      · by_cases hrow : r = row ∧ col ≤ k ∧ k < col + 8
        · obtain ⟨rfl, hc, hk8⟩ := hrow
          refine .inl (.inr ⟨k - col, by omega, ?_, by rwa [Nat.add_sub_cancel' hc]⟩)
          simp only [spriteBit, Bool.and_eq_true, Nat.sub_self, List.getD_cons_zero] at hs
          exact hs.2
        · refine .inr ⟨r, k, hr, hk, ?_, ?_⟩
          · rw [spriteBit_cons] at hs; simpa [hrow] using hs
          · rw [Canvas.pixel_drawBits c b 8 hr hk]; simpa [hrow] using hp

end Sys2Proof.Machine
end

