-- ==== Sys2Proof/Laws/Memory.lean ====
section
/-! SUPPORT. Memory: a read after a write, the canonical form, and runs of bytes. Proofs about the machine cite these and
do not unfold Memory. -/

namespace Sys2Proof.Machine

variable {font : Font} {m : Memory} {a k : Nat} {b : Byte} {o : Option Byte} {bs : List Byte}

/-! ## `Memory.put` -/

/-- Every cell of `put` is the new one or an old one. -/
theorem Memory.mem_put {c : Host.Cell} (h : c ∈ Memory.put m a o) : (c.1 = a ∧ o = some c.2) ∨ c ∈ m := by
  induction m with
  | nil => cases o <;> simp_all [Memory.put]
  | cons d m ih =>
    unfold Memory.put at h
    split at h
    · rcases List.mem_cons.1 h with rfl | h
      · simp
      · rcases ih h with h | h
        · exact .inl h
        · exact .inr (List.mem_cons_of_mem _ h)
    · rcases List.mem_append.1 h with h | h
      · cases o <;> simp_all
      · split at h
        · exact .inr (List.mem_cons_of_mem _ h)
        · exact .inr h

/-- `put` keeps the addresses strictly rising. -/
theorem Memory.pairwise_put (h : m.Pairwise fun c d => c.1 < d.1) :
    (Memory.put m a o).Pairwise fun c d => c.1 < d.1 := by
  induction m with
  | nil => cases o <;> simp [Memory.put]
  | cons d m ih =>
    obtain ⟨hd, hm⟩ := List.pairwise_cons.1 h
    unfold Memory.put
    split
    · refine List.pairwise_cons.2 ⟨fun c hc => ?_, ih hm⟩
      rcases Memory.mem_put hc with ⟨rfl, -⟩ | hc
      · assumption
      · exact hd c hc
    · refine List.pairwise_append.2 ⟨by cases o <;> simp, by split <;> assumption, ?_⟩
      intro c hc e he
      have hca : c.1 = a := by cases o <;> simp_all
      split at he
      · have := hd e he; omega
      · rcases List.mem_cons.1 he with rfl | he
        · omega
        · have := hd e he; omega

/-- With rising addresses an address below all of them is not listed. -/
theorem Memory.read_of_lt (h : ∀ c ∈ m, k < c.1) : Memory.read font m k = Memory.unlisted font k := by
  induction m with
  | nil => rfl
  | cons d m ih =>
    have := h d (by simp)
    rw [Memory.read, if_neg (by omega)]
    exact ih fun c hc => h c (by simp [hc])

/-- What a read gives after `put`. -/
theorem Memory.read_put (h : m.Pairwise fun c d => c.1 < d.1) :
    Memory.read font (Memory.put m a o) k =
      if k = a then o.getD (Memory.unlisted font a) else Memory.read font m k := by
  induction m with
  | nil =>
    cases o with
    | none => by_cases hk : k = a <;> simp [Memory.put, Memory.read, hk]
    | some b => 
      by_cases hk : k = a
      · simp [Memory.put, Memory.read, hk]
      · simp [Memory.put, Memory.read, hk, Ne.symm hk]
  | cons d m ih =>
    obtain ⟨hd, hm⟩ := List.pairwise_cons.1 h
    unfold Memory.put
    by_cases hlt : d.1 < a
    · rw [if_pos hlt, Memory.read, Memory.read, ih hm]
      by_cases hk : k = a
      · rw [if_neg (by omega), if_pos hk, if_pos hk]
      · rw [if_neg hk, if_neg hk]
    · rw [if_neg hlt]
      have hbelow : ∀ c ∈ m, a < c.1 := fun c hc => by have := hd c hc; omega
      by_cases hda : d.1 = a
      · by_cases hk : k = a
        · subst hk
          cases o <;> simp [hda, Memory.read, Memory.read_of_lt hbelow]
        · cases o <;> simp [hda, Memory.read, Ne.symm hk, hk]
      · by_cases hk : k = a
        · subst hk
          have hall : ∀ c ∈ d :: m, k < c.1 := by
            intro c hc
            rcases List.mem_cons.1 hc with rfl | hc
            · omega
            · exact hbelow c hc
          cases o
          · simp only [Option.toList, List.map_nil, List.nil_append, if_neg hda, if_true, Option.getD_none]
            exact Memory.read_of_lt hall
          · simp [hda, Memory.read]
        · cases o <;> simp [hda, Memory.read, Ne.symm hk, hk]

/-! ## One byte -/

/-- A write keeps the canonical form. -/
theorem Memory.wf_write (h : Memory.wf font m) : Memory.wf font (Memory.write font m a b) := by
  unfold Memory.write
  split
  · refine ⟨Memory.pairwise_put h.1, fun c hc => ?_⟩
    rcases Memory.mem_put hc with ⟨hca, ho⟩ | hc
    · split at ho
      · simp at ho
      · cases ho; subst hca; exact ⟨by assumption, by assumption⟩
    · exact h.2 c hc
  · exact h

/-- A read after a write below 4096. -/
theorem Memory.read_write (h : Memory.wf font m) (ha : a < 4096) :
    Memory.read font (Memory.write font m a b) k = if k = a then b else Memory.read font m k := by
  rw [Memory.write, if_pos ha, Memory.read_put h.1]
  by_cases hk : k = a
  · by_cases hb : b = Memory.unlisted font a <;> simp [hk, hb]
  · simp [hk]

/-- A byte at another address is as it was, whatever the memory. -/
theorem Memory.read_put_ne (hk : k ≠ a) : Memory.read font (Memory.put m a o) k = Memory.read font m k := by
  induction m with
  | nil => cases o <;> simp [Memory.put, Memory.read, hk.symm]
  | cons d m ih =>
    unfold Memory.put
    split
    · rw [Memory.read, Memory.read, ih]
    · split
      · rename_i hda
        cases o <;> simp [Memory.read, hda, hk.symm]
      · cases o <;> simp [Memory.read, hk.symm]

/-- A write leaves every other byte alone, in any memory. -/
theorem Memory.read_write_ne (hk : k ≠ a) : Memory.read font (Memory.write font m a b) k = Memory.read font m k := by
  unfold Memory.write
  split
  · exact Memory.read_put_ne hk
  · rfl

/-- A write below 4096 is read back, in any memory. -/
theorem Memory.read_write_same (h : Memory.wf font m) (ha : a < 4096) :
    Memory.read font (Memory.write font m a b) a = b := by
  simp [Memory.read_write h ha]

/-! ## Runs of bytes -/

/-- Byte writes keep the canonical form. -/
theorem Memory.wf_writeBytes (h : Memory.wf font m) : Memory.wf font (Memory.writeBytes font m a bs) := by
  induction bs generalizing m a with
  | nil => exact h
  | cons b bs ih => exact ih (Memory.wf_write h)

/-- Byte writes leave every byte outside their range alone, in any memory. -/
theorem Memory.read_writeBytes_outside (hk : k < a ∨ a + bs.length ≤ k) :
    Memory.read font (Memory.writeBytes font m a bs) k = Memory.read font m k := by
  induction bs generalizing m a with
  | nil => rfl
  | cons b bs ih =>
    simp only [List.length_cons] at hk
    rw [Memory.writeBytes, ih (by omega), Memory.read_write_ne (by omega)]

/-- Byte writes are read back. -/
theorem Memory.read_writeBytes_inside (h : Memory.wf font m) (hfit : a + bs.length ≤ 4096) (hk : k < bs.length) :
    Memory.read font (Memory.writeBytes font m a bs) (a + k) = bs[k] := by
  induction bs generalizing m a k with
  | nil => simp at hk
  | cons b bs ih =>
    simp only [List.length_cons] at hfit hk
    rw [Memory.writeBytes]
    cases k with
    | zero =>
      rw [Memory.read_writeBytes_outside (by omega)]
      simpa using Memory.read_write_same h (by omega)
    | succ k =>
      have := ih (m := Memory.write font m a b) (a := a + 1) (k := k) (Memory.wf_write h) (by omega) (by omega)
      simpa [Nat.add_assoc, Nat.add_comm 1] using this

/-- Empty memory is in canonical form. -/
theorem Memory.wf_nil : Memory.wf font [] := by simp [Memory.wf]

/-! ## On states -/

/-- A byte outside the stored range is as it was. -/
theorem State.readByte_storeBytes_outside (s : State) (hk : k < a ∨ a + bs.length ≤ k) :
    (s.storeBytes a bs).readByte k = s.readByte k :=
  Memory.read_writeBytes_outside hk

/-- A stored byte is read back. -/
theorem State.readByte_storeBytes_inside (s : State) (h : Memory.wf s.font s.mem) (hfit : a + bs.length ≤ 4096)
    (hk : k < bs.length) : (s.storeBytes a bs).readByte (a + k) = bs[k] :=
  Memory.read_writeBytes_inside h hfit hk

/-- Every byte after a store that fits: the stored one inside the range, the old one outside. -/
theorem State.readByte_storeBytes (s : State) (h : Memory.wf s.font s.mem) (hfit : a + bs.length ≤ 4096) :
    (s.storeBytes a bs).readByte k = if a ≤ k then (bs[k - a]?).getD (s.readByte k) else s.readByte k := by
  by_cases hin : a ≤ k ∧ k < a + bs.length
  · have hlt : k - a < bs.length := by omega
    have := s.readByte_storeBytes_inside h hfit hlt
    rw [Nat.add_sub_cancel' hin.1] at this
    simp [this, hin.1, hlt]
  · rw [s.readByte_storeBytes_outside (by omega)]
    split
    · rw [List.getElem?_eq_none (by omega)]; rfl
    · rfl

/-- The bytes read, by position. -/
theorem State.getElem?_readBytes (s : State) (n : Nat) :
    (s.readBytes a n)[k]? = if k < n then some (s.readByte (a + k)) else none := by
  induction n generalizing a k with
  | zero => simp [State.readBytes]
  | succ n ih =>
    cases k with
    | zero => simp [State.readBytes]
    | succ k => simp [State.readBytes, ih, Nat.add_assoc, Nat.add_comm 1]

/-- How many bytes are read. -/
@[simp] theorem State.length_readBytes (s : State) (n : Nat) : (s.readBytes a n).length = n := by
  induction n generalizing a with
  | zero => rfl
  | succ n ih => simp [State.readBytes, ih]

/-- Bytes read depend on the font and the cells only. -/
theorem State.readBytes_congr {s t : State} (hf : t.font = s.font) (hm : t.mem = s.mem) (n : Nat) :
    t.readBytes a n = s.readBytes a n := by
  induction n generalizing a with
  | zero => rfl
  | succ n ih => simp [State.readBytes, ih, State.readByte_congr hf hm]

end Sys2Proof.Machine
end

