-- ==== Sys2Proof/Laws/Ops.lean ====
section
/-! SUPPORT. One lemma for each shared operation and operand form that says everything it does; proofs about the
instructions cite these and do not unfold the operations. -/

namespace Sys2Proof.Machine

variable {s t : State} {a n : Nat}

/-! ## Range checks (R15) -/

/-- A range check passes exactly when nothing is accessed or the range ends in memory. -/
theorem checkRange_eq_none {base count : Nat} : checkRange base count = none ↔ count = 0 ∨ base + count ≤ 0x1000 := by
  unfold checkRange
  split <;> simp <;> omega

/-- A range check fails exactly when some byte lies outside memory, and gives the lowest of them. -/
theorem checkRange_eq_some {base count : Nat} :
    checkRange base count = some a ↔ 0 < count ∧ base + count > 0x1000 ∧ a = max base 0x1000 := by
  unfold checkRange
  split
  · simp only [Option.some.injEq]; omega
  · simp only [reduceCtorEq, false_iff]; omega

/-! ## The call stack (R147, R148) -/

/-- A push with room. -/
theorem State.push?_room (w : Word) (h : s.sp.val < 16) :
    s.push? w = some { s with stack := s.stack.set s.sp.val w, sp := ⟨s.sp.val + 1, by omega⟩ } := by
  simp [State.push?, h]

/-- A push on a full stack. -/
theorem State.push?_full (w : Word) (h : s.sp.val = 16) : s.push? w = none := by
  simp [State.push?, h]

/-- A pop of a held entry. -/
theorem State.pop?_held (h : 0 < s.sp.val) :
    s.pop? = some (s.stack[s.sp.val - 1]'(by omega), { s with sp := ⟨s.sp.val - 1, by omega⟩ }) := by
  simp [State.pop?, h]

/-- A pop of an empty stack. -/
theorem State.pop?_empty (h : s.sp.val = 0) : s.pop? = none := by
  simp [State.pop?, h]

/-- What a push that succeeds did. -/
theorem State.push?_eq_some {w : Word} (h : s.push? w = some t) :
    s.sp.val < 16 ∧ t = { s with stack := t.stack, sp := t.sp } := by
  unfold State.push? at h
  split at h
  · cases h; exact ⟨by assumption, rfl⟩
  · cases h

/-- What a pop that succeeds did. -/
theorem State.pop?_eq_some {w : Word} (h : s.pop? = some (w, t)) :
    0 < s.sp.val ∧ w = s.stack.toList.getD (s.sp.val - 1) 0 ∧ t = { s with sp := t.sp } := by
  unfold State.pop? at h
  split at h
  · cases h
    have : s.sp.val - 1 < 16 := by omega
    exact ⟨by assumption, by simp [this], rfl⟩
  · cases h

/-! ## Fetch (R101, R102) -/

/-- A fetch at an even `PC` of at most 0xFFE. -/
theorem State.fetch_ok (heven : s.pc.toNat % 2 = 0) (hle : s.pc.toNat ≤ 0xFFE) :
    s.fetch = .ok (wordOfBytes (s.readByte s.pc.toNat) (s.readByte (s.pc.toNat + 1))) := by
  rw [State.fetch, if_neg (by omega), if_neg (by omega)]

/-- A fetch at an odd `PC`. -/
theorem State.fetch_odd (h : s.pc.toNat % 2 = 1) : s.fetch = .error (.pcMisaligned, s.pc.toNat) := by
  rw [State.fetch, if_pos h]

/-- A fetch at an even `PC` above 0xFFE. -/
theorem State.fetch_high (heven : s.pc.toNat % 2 = 0) (h : s.pc.toNat > 0xFFE) :
    s.fetch = .error (.memoryOutOfRange, max s.pc.toNat 0x1000) := by
  rw [State.fetch, if_neg (by omega), if_pos h]

/-- The word of two bytes as a number. -/
@[simp] theorem wordOfBytes_toNat (hi lo : Byte) : (wordOfBytes hi lo).toNat = hi.toNat * 256 + lo.toNat := by
  have := hi.isLt
  have := lo.isLt
  simp only [wordOfBytes, BitVec.toNat_ofNat]
  omega

/-! ## Operands -/

@[simp] theorem zextNnn_toNat (nnn : BitVec 12) : (zextNnn nnn).toNat = nnn.toNat := by
  have := nnn.isLt
  simp only [zextNnn, BitVec.toNat_setWidth]
  omega

@[simp] theorem zextByte_toNat (b : Byte) : (zextByte b).toNat = b.toNat := by
  have := b.isLt
  simp only [zextByte, BitVec.toNat_setWidth]
  omega

@[simp] theorem truncByte_toNat (k : Nat) : (truncByte k).toNat = k % 256 := by
  simp [truncByte]

@[simp] theorem glyphAddress_toNat (b : Byte) : (glyphAddress b).toNat = 5 * b.toNat := by
  have := b.isLt
  have h5 : (5 : Word).toNat = 5 := rfl
  simp only [glyphAddress, BitVec.toNat_mul, zextByte_toNat, h5]
  omega

/-- Three digits. -/
@[simp] theorem length_bcdDigits (b : Byte) : (bcdDigits b).length = 3 := rfl

/-- `x + 1` registers. -/
@[simp] theorem State.length_regBlock (s : State) (x : Reg) : (s.regBlock x).length = x.val + 1 := by
  simp [State.regBlock]

/-- The `k`-th byte of a register block is `V[k]`. -/
theorem State.getElem_regBlock (s : State) (x k : Reg) (h : k.val < (s.regBlock x).length) :
    (s.regBlock x)[k.val] = s.reg k := by
  simp [State.regBlock, State.reg]

/-- A block load changes registers only. -/
theorem State.loadBlock_eq (s : State) (a n : Nat) : ∃ v, s.loadBlock a n = { s with v := v } := by
  induction n with
  | zero => exact ⟨s.v, rfl⟩
  | succ n ih =>
    obtain ⟨v, hv⟩ := ih
    exact ⟨v.setIfInBounds n (s.readByte (a + n)), by simp [State.loadBlock, hv]⟩

@[simp] theorem State.loadBlock_i (s : State) (a n : Nat) : (s.loadBlock a n).i = s.i := by
  obtain ⟨v, hv⟩ := State.loadBlock_eq s a n; rw [hv]
@[simp] theorem State.loadBlock_pc (s : State) (a n : Nat) : (s.loadBlock a n).pc = s.pc := by
  obtain ⟨v, hv⟩ := State.loadBlock_eq s a n; rw [hv]
@[simp] theorem State.loadBlock_stack (s : State) (a n : Nat) : (s.loadBlock a n).stack = s.stack := by
  obtain ⟨v, hv⟩ := State.loadBlock_eq s a n; rw [hv]
@[simp] theorem State.loadBlock_sp (s : State) (a n : Nat) : (s.loadBlock a n).sp = s.sp := by
  obtain ⟨v, hv⟩ := State.loadBlock_eq s a n; rw [hv]
@[simp] theorem State.loadBlock_dt (s : State) (a n : Nat) : (s.loadBlock a n).dt = s.dt := by
  obtain ⟨v, hv⟩ := State.loadBlock_eq s a n; rw [hv]
@[simp] theorem State.loadBlock_st (s : State) (a n : Nat) : (s.loadBlock a n).st = s.st := by
  obtain ⟨v, hv⟩ := State.loadBlock_eq s a n; rw [hv]
@[simp] theorem State.loadBlock_fb (s : State) (a n : Nat) : (s.loadBlock a n).fb = s.fb := by
  obtain ⟨v, hv⟩ := State.loadBlock_eq s a n; rw [hv]
@[simp] theorem State.loadBlock_rs (s : State) (a n : Nat) : (s.loadBlock a n).rs = s.rs := by
  obtain ⟨v, hv⟩ := State.loadBlock_eq s a n; rw [hv]
@[simp] theorem State.loadBlock_mem (s : State) (a n : Nat) : (s.loadBlock a n).mem = s.mem := by
  obtain ⟨v, hv⟩ := State.loadBlock_eq s a n; rw [hv]
@[simp] theorem State.loadBlock_font (s : State) (a n : Nat) : (s.loadBlock a n).font = s.font := by
  obtain ⟨v, hv⟩ := State.loadBlock_eq s a n; rw [hv]
@[simp] theorem State.loadBlock_keys (s : State) (a n : Nat) : (s.loadBlock a n).keys = s.keys := by
  obtain ⟨v, hv⟩ := State.loadBlock_eq s a n; rw [hv]
@[simp] theorem State.loadBlock_rnd (s : State) (a n : Nat) : (s.loadBlock a n).rnd = s.rnd := by
  obtain ⟨v, hv⟩ := State.loadBlock_eq s a n; rw [hv]
@[simp] theorem State.loadBlock_schedule (s : State) (a n : Nat) : (s.loadBlock a n).schedule = s.schedule := by
  obtain ⟨v, hv⟩ := State.loadBlock_eq s a n; rw [hv]
@[simp] theorem State.loadBlock_draws (s : State) (a n : Nat) : (s.loadBlock a n).draws = s.draws := by
  obtain ⟨v, hv⟩ := State.loadBlock_eq s a n; rw [hv]
@[simp] theorem State.loadBlock_presents (s : State) (a n : Nat) : (s.loadBlock a n).presents = s.presents := by
  obtain ⟨v, hv⟩ := State.loadBlock_eq s a n; rw [hv]

/-- The registers after a block load of `n` bytes (R206). -/
theorem State.reg_loadBlock (s : State) (a n : Nat) (r : Reg) :
    (s.loadBlock a n).reg r = if r.val < n then s.readByte (a + r.val) else s.reg r := by
  induction n with
  | zero => simp [State.loadBlock]
  | succ n ih =>
    unfold State.reg at ih ⊢
    simp only [State.loadBlock, Vector.getElem_setIfInBounds, ih]
    by_cases h : n = r.val
    · subst h; simp
    · have : (r.val < n + 1) ↔ r.val < n := by omega
      simp [h, this]

/-- A key index is a value of at most 0xF (R220). -/
theorem keyIndex_eq_some (b : Byte) (h : b.toNat < 16) : keyIndex b = some ⟨b.toNat, h⟩ := by
  simp [keyIndex, h]

/-- A greater value is no key index (R220). -/
theorem keyIndex_eq_none (b : Byte) (h : 16 ≤ b.toNat) : keyIndex b = none := by
  simp [keyIndex, h]

/-- An empty mask has no lowest key. -/
theorem lowestKey_zero : lowestKey 0 = none := by
  simp [lowestKey]

/-- A mask that is not empty has a lowest key (R225, R226). -/
theorem lowestKey_spec {mask : Word} (h : mask ≠ 0) : ∃ k : Fin 16,
    lowestKey mask = some k.val ∧ mask.getLsbD k.val = true ∧ ∀ j < k.val, mask.getLsbD j = false := by
  cases hk : lowestKey mask with
  | none =>
    exfalso
    refine h (BitVec.eq_of_getLsbD_eq fun j hj => ?_)
    have := List.find?_eq_none.1 hk j (by simpa using hj)
    simpa using this
  | some k =>
    have hmem : k < 16 := by simpa using List.mem_of_find?_eq_some hk
    refine ⟨⟨k, hmem⟩, rfl, List.find?_some hk, fun j hj => ?_⟩
    obtain ⟨-, as, bs, heq, hbefore⟩ := List.find?_eq_some_iff_append.1 hk
    have hj' : j ∈ as := by
      have hlen : as.length = k := by
        have hget : (List.range 16)[as.length]? = some k := by rw [heq]; simp
        have hlt : as.length < 16 := by
          have := congrArg List.length heq
          simp at this
          omega
        rw [List.getElem?_range hlt] at hget
        simpa using hget
      have hget : (List.range 16)[j]? = some j := List.getElem?_range (by simp at hj; omega)
      rw [heq, List.getElem?_append_left (by simp at hj; omega)] at hget
      exact List.mem_of_getElem? hget
    simpa using hbefore j hj'

/-! ## Flags (R170 to R173) -/

@[simp] theorem lowBitFlag_eq (b : Byte) : lowBitFlag b = BitVec.ofNat 8 (b.toNat % 2) := by
  apply BitVec.eq_of_toNat_eq
  have := b.isLt
  have h1 : (1 : Byte).toNat = 1 := rfl
  simp only [lowBitFlag, BitVec.toNat_and, BitVec.toNat_ofNat, h1, Nat.and_one_is_mod]
  omega

@[simp] theorem highBitFlag_eq (b : Byte) : highBitFlag b = BitVec.ofNat 8 (b.toNat / 128) := by
  apply BitVec.eq_of_toNat_eq
  have := b.isLt
  have h1 : (1 : Byte).toNat = 1 := rfl
  simp only [highBitFlag, BitVec.toNat_and, BitVec.toNat_ushiftRight, BitVec.toNat_ofNat, h1, Nat.and_one_is_mod,
    Nat.shiftRight_eq_div_pow]
  omega

end Sys2Proof.Machine
end

