-- ==== Sys2Proof/Laws/Step.lean ====
section
/-! SUPPORT. What one step can do, said once: which operation it is, and for `step(keys, rnd)` which of the cases of R100
it falls into. Invariant proofs cite the last theorems and do not unfold step. -/

namespace Sys2Proof.Machine

variable {s t : State} {keys : Word} {rnd : Byte}

/-! ## Which operation -/

theorem State.nextOp_cons {op : HostOp} {rest : List HostOp} (h : s.schedule = op :: rest) :
    s.nextOp = (op, { s with schedule := rest }) := by
  simp [State.nextOp, h]

theorem State.nextOp_nil (h : s.schedule = []) :
    s.nextOp = (.step (Config.freeKeys s.draws) (Config.freeRnd s.draws), { s with draws := s.draws + 1 }) := by
  simp [State.nextOp, h]

theorem step_cons {op : HostOp} {rest : List HostOp} (h : s.schedule = op :: rest) :
    step s = { s with schedule := rest }.operate op := by
  simp [step, State.nextOp_cons h]

theorem step_nil (h : s.schedule = []) :
    step s = { s with draws := s.draws + 1 }.stepOp (Config.freeKeys s.draws) (Config.freeRnd s.draws) := by
  simp [step, State.nextOp_nil h, State.operate]

/-- A step is one operation on a state that differs in the host's side only. -/
theorem step_eq_operate (s : State) : ∃ op rest n, step s = { s with schedule := rest, draws := n }.operate op := by
  cases h : s.schedule with
  | nil => exact ⟨.step (Config.freeKeys s.draws) (Config.freeRnd s.draws), [], s.draws + 1, by
      rw [step_nil h]; simp only [State.operate, ← h]⟩
  | cons op rest => exact ⟨op, rest, s.draws, by rw [step_cons h]⟩

/-! ## `step(keys, rnd)` -/

theorem State.stepOp_running (h : s.rs = .running) :
    s.stepOp keys rnd = { s with keys := keys, rnd := rnd }.cycle := by
  simp [State.stepOp, h]

theorem State.stepOp_awaiting {r : Reg} (h : s.rs = .awaitingKey r) : s.stepOp keys rnd = .next s := by
  simp [State.stepOp, h]

theorem State.stepOp_faulted {report : FaultReport} (h : s.rs = .faulted report) : s.stepOp keys rnd = .next s := by
  simp [State.stepOp, h]

/-- A cycle whose fetched word decodes is `exec`. -/
theorem State.cycle_exec {w : Word} {i : Instr} (hf : s.fetch = .ok w) (hd : decodeWord w = some i) :
    s.cycle = exec i s := by
  simp [State.cycle, hf, hd]

/-- A cycle whose fetched word is unknown. -/
theorem State.cycle_unknown {w : Word} (hf : s.fetch = .ok w) (hd : decodeWord w = none) :
    s.cycle = s.raise .unknownOpcode (some w) (some w.toNat) := by
  simp [State.cycle, hf, hd]

/-- A cycle whose fetch faults. -/
theorem State.cycle_error {kind : FaultKind} {info : Nat} (hf : s.fetch = .error (kind, info)) :
    s.cycle = s.raise kind none (some info) := by
  simp [State.cycle, hf]

/-- The four cases of a cycle, with their guards (R100, R246). -/
theorem State.cycle_cases (s : State) :
    (s.pc.toNat % 2 = 1 ∧ s.cycle = s.raise .pcMisaligned none (some s.pc.toNat)) ∨
    (s.pc.toNat % 2 = 0 ∧ s.pc.toNat > 0xFFE ∧
      s.cycle = s.raise .memoryOutOfRange none (some (max s.pc.toNat 0x1000))) ∨
    (s.pc.toNat % 2 = 0 ∧ s.pc.toNat ≤ 0xFFE ∧ ∃ w, s.fetch = .ok w ∧ decodeWord w = none ∧
      s.cycle = s.raise .unknownOpcode (some w) (some w.toNat)) ∨
    (s.pc.toNat % 2 = 0 ∧ s.pc.toNat ≤ 0xFFE ∧ ∃ w i, s.fetch = .ok w ∧ decodeWord w = some i ∧
      s.cycle = exec i s) := by
  by_cases hodd : s.pc.toNat % 2 = 1
  · exact .inl ⟨hodd, State.cycle_error (State.fetch_odd hodd)⟩
  have heven : s.pc.toNat % 2 = 0 := by omega
  by_cases hhigh : s.pc.toNat > 0xFFE
  · exact .inr (.inl ⟨heven, hhigh, State.cycle_error (State.fetch_high heven hhigh)⟩)
  have hle : s.pc.toNat ≤ 0xFFE := by omega
  have hf := State.fetch_ok heven hle
  cases hd : decodeWord (wordOfBytes (s.readByte s.pc.toNat) (s.readByte (s.pc.toNat + 1))) with
  | none => exact .inr (.inr (.inl ⟨heven, hle, _, hf, hd, State.cycle_unknown hf hd⟩))
  | some i => exact .inr (.inr (.inr ⟨heven, hle, _, i, hf, hd, State.cycle_exec hf hd⟩))

/-! ## The other operations -/

theorem State.tickTimers_faulted {report : FaultReport} (h : s.rs = .faulted report) : s.tickTimers = s := by
  simp [State.tickTimers, h]

theorem State.tickTimers_live (h : ∀ report, s.rs ≠ .faulted report) :
    s.tickTimers = { s with dt := decrement s.dt, st := decrement s.st } := by
  unfold State.tickTimers
  split
  · rfl
  · rfl
  · rename_i report hr; exact absurd hr (h report)

@[simp] theorem decrement_toNat (b : Byte) : (decrement b).toNat = b.toNat - 1 := by
  have := b.isLt
  unfold decrement
  split
  · rename_i h; subst h; rfl
  · rename_i h
    have : b.toNat ≠ 0 := fun h0 => h (BitVec.eq_of_toNat_eq (by simpa using h0))
    have h1 : (1 : Byte).toNat = 1 := rfl
    rw [BitVec.toNat_sub, h1]
    omega

theorem State.keyEvent_awaiting {r : Reg} {k : Nat} {mask : Word} (h : s.rs = .awaitingKey r)
    (hk : lowestKey mask = some k) : s.keyEvent mask = { s.setReg r (truncByte k) with rs := .running } := by
  simp [State.keyEvent, h, hk]

theorem State.keyEvent_elsewhere {mask : Word} (h : (∀ r, s.rs ≠ .awaitingKey r) ∨ mask = 0) : s.keyEvent mask = s := by
  unfold State.keyEvent
  split
  · rfl
  · rename_i r hr
    rcases h with h | h
    · exact absurd hr (h r)
    · rw [h, lowestKey_zero]
  · rfl

theorem State.resetWith_fits {rom : List Byte} (h : rom.length ≤ 3584) :
    s.resetWith rom = .next { State.reset with
      mem := Memory.writeBytes s.font [] 0x200 rom
      font := s.font, keys := s.keys, rnd := s.rnd, schedule := s.schedule, draws := s.draws,
      presents := s.presents } := by
  rw [State.resetWith, if_neg (by omega)]

theorem State.resetWith_tooLarge {rom : List Byte} (h : rom.length > 3584) : s.resetWith rom = .fault .romTooLarge := by
  rw [State.resetWith, if_pos h]

end Sys2Proof.Machine
end

