-- ==== Sys2Proof/Laws/Exec.lean ====
section
/-! SUPPORT. What the guarded instructions do, once for the case that completes and once for the case that faults, and
the sprite of a draw in the terms of Safety.lean. Proofs about these instructions cite these and do not unfold them. -/

namespace Sys2Proof.Machine

variable {s : State}

/-! ## The program counter (R104, R106) -/

theorem State.pc_add_two (s : State) : s.pc + 2 = s.pcPlus 2 := by
  apply BitVec.eq_of_toNat_eq
  simp [State.pcPlus, BitVec.toNat_add]

theorem State.pc_add_four (s : State) : s.pc + 2 + 2 = s.pcPlus 4 := by
  apply BitVec.eq_of_toNat_eq
  simp [State.pcPlus, BitVec.toNat_add]

/-- `PC` after a skip, in the terms of Safety.lean. -/
theorem State.pc_skipIf (s : State) {c : Bool} {p : Prop} [Decidable p] (h : c = true ↔ p) :
    (s.advance.skipIf c).pc = s.pcSkip p := by
  simp only [State.skipIf_pc, State.advance_pc, State.pcSkip, h, s.pc_add_two]
  rw [← s.pc_add_four, ← s.pc_add_two]

/-! ## Instructions with a range check (R15, R200) -/

theorem exec_drw_fits (x y : Reg) (n : Nat) (h : n = 0 ∨ s.i.toNat + n ≤ 0x1000) :
    exec (.drw x y n) s =
      .next ({ s.advance with fb := (s.drawn x y n).fb }.setReg VF (flagOf (s.drawn x y n).hit)).present := by
  simp only [exec, execDrw, checkRange_eq_none.2 h]

theorem exec_drw_outside (x y : Reg) {n : Nat} (hn : 0 < n) (h : s.i.toNat + n > 0x1000) :
    exec (.drw x y n) s =
      s.raise .memoryOutOfRange (some (encode (.drw x y n))) (some (max s.i.toNat 0x1000)) := by
  simp only [exec, execDrw, checkRange_eq_some.2 ⟨hn, h, rfl⟩]

theorem exec_ldBcd_fits (x : Reg) (h : s.i.toNat + 3 ≤ 0x1000) :
    exec (.ldBcd x) s = .next (s.advance.storeBytes s.i.toNat (bcdDigits (s.reg x))) := by
  simp only [exec, execLdBcd, checkRange_eq_none.2 (.inr h)]

theorem exec_ldBcd_outside (x : Reg) (h : s.i.toNat + 3 > 0x1000) :
    exec (.ldBcd x) s = s.raise .memoryOutOfRange (some (encode (.ldBcd x))) (some (max s.i.toNat 0x1000)) := by
  simp only [exec, execLdBcd, checkRange_eq_some.2 ⟨by decide, h, rfl⟩]

theorem exec_storeRegs_fits (x : Reg) (h : s.i.toNat + (x.val + 1) ≤ 0x1000) :
    exec (.storeRegs x) s = .next (s.advance.storeBytes s.i.toNat (s.regBlock x)) := by
  simp only [exec, execStoreRegs, checkRange_eq_none.2 (.inr h)]

theorem exec_storeRegs_outside (x : Reg) (h : s.i.toNat + (x.val + 1) > 0x1000) :
    exec (.storeRegs x) s =
      s.raise .memoryOutOfRange (some (encode (.storeRegs x))) (some (max s.i.toNat 0x1000)) := by
  simp only [exec, execStoreRegs, checkRange_eq_some.2 ⟨by omega, h, rfl⟩]

theorem exec_loadRegs_fits (x : Reg) (h : s.i.toNat + (x.val + 1) ≤ 0x1000) :
    exec (.loadRegs x) s = .next (s.advance.loadBlock s.i.toNat (x.val + 1)) := by
  simp only [exec, execLoadRegs, checkRange_eq_none.2 (.inr h)]

theorem exec_loadRegs_outside (x : Reg) (h : s.i.toNat + (x.val + 1) > 0x1000) :
    exec (.loadRegs x) s =
      s.raise .memoryOutOfRange (some (encode (.loadRegs x))) (some (max s.i.toNat 0x1000)) := by
  simp only [exec, execLoadRegs, checkRange_eq_some.2 ⟨by omega, h, rfl⟩]

/-! ## Stored bytes, in the terms of Safety.lean (R204, R205) -/

/-- A byte after the store of a register block. -/
theorem State.readByte_storeRegBlock (x : Reg) (a : Nat) (h : Memory.wf s.font s.mem)
    (hfit : s.i.toNat + (x.val + 1) ≤ 0x1000) :
    (s.storeBytes s.i.toNat (s.regBlock x)).readByte a = s.byteAfterStoreRegs x a := by
  rw [s.readByte_storeBytes h (by simpa using hfit), State.byteAfterStoreRegs]
  by_cases hin : s.i.toNat ≤ a ∧ a ≤ s.i.toNat + x.val
  · have hlt : a - s.i.toNat < (s.regBlock x).length := by rw [s.length_regBlock]; omega
    rw [if_pos hin.1, dif_pos hin, List.getElem?_eq_getElem hlt, Option.getD_some]
    exact s.getElem_regBlock x ⟨a - s.i.toNat, by omega⟩ hlt
  · rw [dif_neg hin]
    split
    · rw [List.getElem?_eq_none (by rw [s.length_regBlock]; omega)]; rfl
    · rfl

/-- A byte after the store of the decimal digits. -/
theorem State.readByte_storeDigits (x : Reg) (a : Nat) (h : Memory.wf s.font s.mem) (hfit : s.i.toNat + 3 ≤ 0x1000) :
    (s.storeBytes s.i.toNat (bcdDigits (s.reg x))).readByte a = s.byteAfterBcd x a := by
  rw [s.readByte_storeBytes h (by simpa using hfit), State.byteAfterBcd]
  by_cases hin : s.i.toNat ≤ a
  · obtain ⟨d, rfl⟩ := Nat.exists_eq_add_of_le hin
    match d with
    | 0 => simp [bcdDigits, truncByte]
    | 1 => simp [bcdDigits, truncByte]
    | 2 => simp [bcdDigits, truncByte]
    | d + 3 => simp [bcdDigits, truncByte]
  · rw [if_neg hin, if_neg (by omega), if_neg (by omega), if_neg (by omega)]

/-! ## Call and return (R143, R145) -/

theorem exec_call_room (nnn : BitVec 12) (h : s.sp.val < 16) :
    exec (.call nnn) s = .next { s with
      pc := zextNnn nnn, stack := s.stack.set s.sp.val (s.pc + 2), sp := ⟨s.sp.val + 1, by omega⟩ } := by
  simp only [exec, execCall, State.push?_room (s := s.advance) _ h]
  rfl

theorem exec_call_full (nnn : BitVec 12) (h : s.sp.val = 16) :
    exec (.call nnn) s = s.raise .stackOverflow (some (encode (.call nnn))) none := by
  simp only [exec, execCall, State.push?_full (s := s.advance) _ h]

theorem exec_ret_held (h : 0 < s.sp.val) :
    exec .ret s = .next { s with
      pc := s.stack[s.sp.val - 1]'(by omega), sp := ⟨s.sp.val - 1, by omega⟩ } := by
  simp only [exec, execRet, State.pop?_held (s := s.advance) h]
  rfl

theorem exec_ret_empty (h : s.sp.val = 0) : exec .ret s = s.raise .stackUnderflow (some (encode .ret)) none := by
  simp only [exec, execRet, State.pop?_empty (s := s.advance) h]

/-! ## Key skips (R220 to R222) -/

theorem exec_skp_key (x : Reg) (h : (s.reg x).toNat < 16) :
    exec (.skp x) s = .next (s.advance.skipIf (s.keys.getLsbD (s.reg x).toNat)) := by
  simp only [exec, execSkp, keyIndex_eq_some _ h, keyPressed]

theorem exec_skp_outside (x : Reg) (h : 16 ≤ (s.reg x).toNat) :
    exec (.skp x) s = s.raise .keyIndexOutOfRange (some (encode (.skp x))) (some (s.reg x).toNat) := by
  simp only [exec, execSkp, keyIndex_eq_none _ h]

theorem exec_sknp_key (x : Reg) (h : (s.reg x).toNat < 16) :
    exec (.sknp x) s = .next (s.advance.skipIf (!s.keys.getLsbD (s.reg x).toNat)) := by
  simp only [exec, execSknp, keyIndex_eq_some _ h, keyPressed]

theorem exec_sknp_outside (x : Reg) (h : 16 ≤ (s.reg x).toNat) :
    exec (.sknp x) s = s.raise .keyIndexOutOfRange (some (encode (.sknp x))) (some (s.reg x).toNat) := by
  simp only [exec, execSknp, keyIndex_eq_none _ h]

/-! ## Sprites -/

/-- The sprite bits that the drawing loops place are those of Safety.lean's `spriteAt`. -/
theorem spriteBit_eq_spriteAt (s : State) (x y : Reg) (n r c : Nat) :
    spriteBit (s.readBytes s.i.toNat n) (s.originRow y) (s.originCol x) r c = s.spriteAt x y n r c := by
  unfold spriteBit State.spriteAt State.originRow State.originCol
  rw [State.length_readBytes, List.getD_eq_getElem?_getD, State.getElem?_readBytes]
  by_cases h : (s.reg y).toNat % 32 ≤ r ∧ r < (s.reg y).toNat % 32 + n ∧
      (s.reg x).toNat % 64 ≤ c ∧ c < (s.reg x).toNat % 64 + 8
  · have : r - (s.reg y).toNat % 32 < n := by omega
    simp [this]
  · simp only [h, decide_false, Bool.false_and]

/-! ## Masks as fields, for the clauses `Encodes` -/

theorem eq_of_maskF000 {w p : Word} : w &&& 0xF000 = p ↔ fieldMajor w * 4096 = p.toNat := by
  rw [← BitVec.toNat_inj, and_maskF000, fieldMajor_eq]

theorem eq_of_maskF00F {w p : Word} : w &&& 0xF00F = p ↔ fieldMajor w * 4096 + fieldN w = p.toNat := by
  rw [← BitVec.toNat_inj, and_maskF00F, fieldMajor_eq, fieldN_eq]

theorem eq_of_maskF0FF {w p : Word} : w &&& 0xF0FF = p ↔ fieldMajor w * 4096 + (fieldKk w).toNat = p.toNat := by
  rw [← BitVec.toNat_inj, and_maskF0FF, fieldMajor_eq, fieldKk_toNat]

end Sys2Proof.Machine
end

