-- ==== Sys2Proof/Laws/PerInstr.lean ====
section
/-! SUPPORT. The family RoundTrip, one lemma per instruction: the word of a well-formed instruction decodes to it. -/

namespace Sys2Proof.Laws.RoundTrip

/-- The word of the instruction decodes to the instruction. -/
def Statement (i : Instr) : Prop := i.wellFormed = true → decodeWord (encode i) = some i

theorem cls : Statement (.cls) := fun _ => rfl
theorem ret : Statement (.ret) := fun _ => rfl
theorem jp (nnn : BitVec 12) : Statement (.jp nnn) := by
  intro _
  obtain ⟨hp, hnnn⟩ := fields_wordNnn 0x1 nnn (by decide)
  simp only [decodeWord, encode, hp, hnnn]
theorem call (nnn : BitVec 12) : Statement (.call nnn) := by
  intro _
  obtain ⟨hp, hnnn⟩ := fields_wordNnn 0x2 nnn (by decide)
  simp only [decodeWord, encode, hp, hnnn]
theorem seByte (x : Reg) (kk : Byte) : Statement (.seByte x kk) := by
  intro _
  obtain ⟨hp, hx, hkk⟩ := fields_wordXkk 0x3 x kk (by decide)
  simp only [decodeWord, encode, hp, hx, hkk]
theorem sneByte (x : Reg) (kk : Byte) : Statement (.sneByte x kk) := by
  intro _
  obtain ⟨hp, hx, hkk⟩ := fields_wordXkk 0x4 x kk (by decide)
  simp only [decodeWord, encode, hp, hx, hkk]
theorem seReg (x : Reg) (y : Reg) : Statement (.seReg x y) := by
  intro _
  obtain ⟨hp, hx, hy, hn⟩ := fields_wordXyn 0x5 x y 0x0 (by decide) (by decide)
  simp only [decodeWord, encode, hp, hx, hy, hn, if_true]
theorem ldByte (x : Reg) (kk : Byte) : Statement (.ldByte x kk) := by
  intro _
  obtain ⟨hp, hx, hkk⟩ := fields_wordXkk 0x6 x kk (by decide)
  simp only [decodeWord, encode, hp, hx, hkk]
theorem addByte (x : Reg) (kk : Byte) : Statement (.addByte x kk) := by
  intro _
  obtain ⟨hp, hx, hkk⟩ := fields_wordXkk 0x7 x kk (by decide)
  simp only [decodeWord, encode, hp, hx, hkk]
theorem ldReg (x : Reg) (y : Reg) : Statement (.ldReg x y) := by
  intro _
  obtain ⟨hp, hx, hy, hn⟩ := fields_wordXyn 0x8 x y 0x0 (by decide) (by decide)
  simp only [decodeWord, encode, hp, hx, hy, hn, decodeAlu]
theorem orReg (x : Reg) (y : Reg) : Statement (.orReg x y) := by
  intro _
  obtain ⟨hp, hx, hy, hn⟩ := fields_wordXyn 0x8 x y 0x1 (by decide) (by decide)
  simp only [decodeWord, encode, hp, hx, hy, hn, decodeAlu]
theorem andReg (x : Reg) (y : Reg) : Statement (.andReg x y) := by
  intro _
  obtain ⟨hp, hx, hy, hn⟩ := fields_wordXyn 0x8 x y 0x2 (by decide) (by decide)
  simp only [decodeWord, encode, hp, hx, hy, hn, decodeAlu]
theorem xorReg (x : Reg) (y : Reg) : Statement (.xorReg x y) := by
  intro _
  obtain ⟨hp, hx, hy, hn⟩ := fields_wordXyn 0x8 x y 0x3 (by decide) (by decide)
  simp only [decodeWord, encode, hp, hx, hy, hn, decodeAlu]
theorem addReg (x : Reg) (y : Reg) : Statement (.addReg x y) := by
  intro _
  obtain ⟨hp, hx, hy, hn⟩ := fields_wordXyn 0x8 x y 0x4 (by decide) (by decide)
  simp only [decodeWord, encode, hp, hx, hy, hn, decodeAlu]
theorem subReg (x : Reg) (y : Reg) : Statement (.subReg x y) := by
  intro _
  obtain ⟨hp, hx, hy, hn⟩ := fields_wordXyn 0x8 x y 0x5 (by decide) (by decide)
  simp only [decodeWord, encode, hp, hx, hy, hn, decodeAlu]
theorem shr (x : Reg) (y : Reg) : Statement (.shr x y) := by
  intro _
  obtain ⟨hp, hx, hy, hn⟩ := fields_wordXyn 0x8 x y 0x6 (by decide) (by decide)
  simp only [decodeWord, encode, hp, hx, hy, hn, decodeAlu]
theorem subnReg (x : Reg) (y : Reg) : Statement (.subnReg x y) := by
  intro _
  obtain ⟨hp, hx, hy, hn⟩ := fields_wordXyn 0x8 x y 0x7 (by decide) (by decide)
  simp only [decodeWord, encode, hp, hx, hy, hn, decodeAlu]
theorem shl (x : Reg) (y : Reg) : Statement (.shl x y) := by
  intro _
  obtain ⟨hp, hx, hy, hn⟩ := fields_wordXyn 0x8 x y 0xE (by decide) (by decide)
  simp only [decodeWord, encode, hp, hx, hy, hn, decodeAlu]
theorem sneReg (x : Reg) (y : Reg) : Statement (.sneReg x y) := by
  intro _
  obtain ⟨hp, hx, hy, hn⟩ := fields_wordXyn 0x9 x y 0x0 (by decide) (by decide)
  simp only [decodeWord, encode, hp, hx, hy, hn, if_true]
theorem ldI (nnn : BitVec 12) : Statement (.ldI nnn) := by
  intro _
  obtain ⟨hp, hnnn⟩ := fields_wordNnn 0xA nnn (by decide)
  simp only [decodeWord, encode, hp, hnnn]
theorem jpV0 (nnn : BitVec 12) : Statement (.jpV0 nnn) := by
  intro _
  obtain ⟨hp, hnnn⟩ := fields_wordNnn 0xB nnn (by decide)
  simp only [decodeWord, encode, hp, hnnn]
theorem rnd (x : Reg) (kk : Byte) : Statement (.rnd x kk) := by
  intro _
  obtain ⟨hp, hx, hkk⟩ := fields_wordXkk 0xC x kk (by decide)
  simp only [decodeWord, encode, hp, hx, hkk]
theorem drw (x : Reg) (y : Reg) (n : Nat) : Statement (.drw x y n) := by
  intro hwf
  obtain ⟨hp, hx, hy, hn⟩ := fields_wordXyn 0xD x y n (by decide) (by simpa [Instr.wellFormed] using hwf)
  simp only [decodeWord, encode, hp, hx, hy, hn]
theorem skp (x : Reg) : Statement (.skp x) := by
  intro _
  obtain ⟨hp, hx, hkk⟩ := fields_wordXkk 0xE x 0x9E (by decide)
  simp only [decodeWord, encode, hp, hx, hkk, decodeKeySkip]
  rfl
theorem sknp (x : Reg) : Statement (.sknp x) := by
  intro _
  obtain ⟨hp, hx, hkk⟩ := fields_wordXkk 0xE x 0xA1 (by decide)
  simp only [decodeWord, encode, hp, hx, hkk, decodeKeySkip]
  rfl
theorem ldVxDt (x : Reg) : Statement (.ldVxDt x) := by
  intro _
  obtain ⟨hp, hx, hkk⟩ := fields_wordXkk 0xF x 0x07 (by decide)
  simp only [decodeWord, encode, hp, hx, hkk, decodeMisc]
  rfl
theorem ldVxKey (x : Reg) : Statement (.ldVxKey x) := by
  intro _
  obtain ⟨hp, hx, hkk⟩ := fields_wordXkk 0xF x 0x0A (by decide)
  simp only [decodeWord, encode, hp, hx, hkk, decodeMisc]
  rfl
theorem ldDtVx (x : Reg) : Statement (.ldDtVx x) := by
  intro _
  obtain ⟨hp, hx, hkk⟩ := fields_wordXkk 0xF x 0x15 (by decide)
  simp only [decodeWord, encode, hp, hx, hkk, decodeMisc]
  rfl
theorem ldStVx (x : Reg) : Statement (.ldStVx x) := by
  intro _
  obtain ⟨hp, hx, hkk⟩ := fields_wordXkk 0xF x 0x18 (by decide)
  simp only [decodeWord, encode, hp, hx, hkk, decodeMisc]
  rfl
theorem addI (x : Reg) : Statement (.addI x) := by
  intro _
  obtain ⟨hp, hx, hkk⟩ := fields_wordXkk 0xF x 0x1E (by decide)
  simp only [decodeWord, encode, hp, hx, hkk, decodeMisc]
  rfl
theorem ldFont (x : Reg) : Statement (.ldFont x) := by
  intro _
  obtain ⟨hp, hx, hkk⟩ := fields_wordXkk 0xF x 0x29 (by decide)
  simp only [decodeWord, encode, hp, hx, hkk, decodeMisc]
  rfl
theorem ldBcd (x : Reg) : Statement (.ldBcd x) := by
  intro _
  obtain ⟨hp, hx, hkk⟩ := fields_wordXkk 0xF x 0x33 (by decide)
  simp only [decodeWord, encode, hp, hx, hkk, decodeMisc]
  rfl
theorem storeRegs (x : Reg) : Statement (.storeRegs x) := by
  intro _
  obtain ⟨hp, hx, hkk⟩ := fields_wordXkk 0xF x 0x55 (by decide)
  simp only [decodeWord, encode, hp, hx, hkk, decodeMisc]
  rfl
theorem loadRegs (x : Reg) : Statement (.loadRegs x) := by
  intro _
  obtain ⟨hp, hx, hkk⟩ := fields_wordXkk 0xF x 0x65 (by decide)
  simp only [decodeWord, encode, hp, hx, hkk, decodeMisc]
  rfl

end Sys2Proof.Laws.RoundTrip
end

