-- ==== Sys2Proof/Tests/Slice0.lean ====
section
/-! SUPPORT. The model's own tests. Expected values are those of the spec's test vectors (81_test_vectors.md, named in
each comment) or of a word written out from 30_encoding.md; and one witness for the hypotheses of each obligation. -/

namespace Sys2Proof.Tests

open Sys2Proof.Machine

/-! ## Helpers -/

/-- The state after reset with some registers set and a word where the next fetch reads. -/
def small (w : Nat) (regs : List (Reg × Byte)) : State :=
  (regs.foldl (fun s p => s.setReg p.1 p.2) State.reset).withFetchWord 16 w

/-- What a reader sees of the next state, if there is one. -/
def look {α : Type} (r : Result) (f : State → α) : Option α :=
  match r with
  | .next t => some (f t)
  | .fault _ => none
  | .refused _ => none

/-- The run state of a halted CORE. -/
def halted : RunState := .faulted ⟨.stackUnderflow, some 0x00EE, 0x200, none⟩

/-! ## WellFormed -/

/-- Smoke: a height that does not fit its field is refused (R73), the greatest that fits is not. -/
theorem test_wellFormed_height : (Instr.drw 0 1 16).wellFormed = false ∧ (Instr.drw 0 1 15).wellFormed = true := by
  decide

/-! ## Decoding, from the encodings of 30_encoding.md R77 to R82 -/

theorem test_decode_display :
    decodeWord 0b0000000011100000 = some .cls ∧
    decodeWord 0b1101001000111010 = some (.drw 2 3 10) := by decide

theorem test_decode_control :
    decodeWord 0b0000000011101110 = some .ret ∧
    decodeWord 0b0001001000110100 = some (.jp 0x234) ∧
    decodeWord 0b0010011000000000 = some (.call 0x600) ∧
    decodeWord 0b1011111111111110 = some (.jpV0 0xFFE) := by decide

theorem test_decode_skips :
    decodeWord 0b0011001101000010 = some (.seByte 3 0x42) ∧
    decodeWord 0b0100111110000001 = some (.sneByte 15 0x81) ∧
    decodeWord 0b0101000100100000 = some (.seReg 1 2) ∧
    decodeWord 0b1001101010110000 = some (.sneReg 10 11) := by decide

theorem test_decode_bytes :
    decodeWord 0b0110101000101111 = some (.ldByte 10 0x2F) ∧
    decodeWord 0b0111010011111111 = some (.addByte 4 0xFF) ∧
    decodeWord 0b1100001100001111 = some (.rnd 3 0x0F) := by decide

theorem test_decode_alu :
    decodeWord 0b1000000100100000 = some (.ldReg 1 2) ∧
    decodeWord 0b1000000100100001 = some (.orReg 1 2) ∧
    decodeWord 0b1000000100100010 = some (.andReg 1 2) ∧
    decodeWord 0b1000000100100011 = some (.xorReg 1 2) ∧
    decodeWord 0b1000000100100100 = some (.addReg 1 2) ∧
    decodeWord 0b1000000100100101 = some (.subReg 1 2) ∧
    decodeWord 0b1000000100100110 = some (.shr 1 2) ∧
    decodeWord 0b1000000100100111 = some (.subnReg 1 2) ∧
    decodeWord 0b1000000100101110 = some (.shl 1 2) := by decide

theorem test_decode_index :
    decodeWord 0b1010001011110000 = some (.ldI 0x2F0) ∧
    decodeWord 0b1111001000011110 = some (.addI 2) ∧
    decodeWord 0b1111010100101001 = some (.ldFont 5) ∧
    decodeWord 0b1111000100110011 = some (.ldBcd 1) ∧
    decodeWord 0b1111000101010101 = some (.storeRegs 1) ∧
    decodeWord 0b1111111101100101 = some (.loadRegs 15) := by decide

theorem test_decode_keys :
    decodeWord 0b1110000110011110 = some (.skp 1) ∧
    decodeWord 0b1110000110100001 = some (.sknp 1) ∧
    decodeWord 0b1111010000000111 = some (.ldVxDt 4) ∧
    decodeWord 0b1111001100001010 = some (.ldVxKey 3) ∧
    decodeWord 0b1111101000010101 = some (.ldDtVx 10) ∧
    decodeWord 0b1111000100011000 = some (.ldStVx 1) := by decide

/-- Reserved words that a careless decoder takes for a neighbour (STP-9, STP-11 to STP-17). -/
theorem test_decode_reserved :
    decodeWord 0x00E1 = none ∧ decodeWord 0x5121 = none ∧ decodeWord 0x8008 = none ∧ decodeWord 0x800F = none ∧
    decodeWord 0x9121 = none ∧ decodeWord 0xE09F = none ∧ decodeWord 0xF000 = none ∧ decodeWord 0xF0FF = none := by
  decide

/-- The high byte stands at the lower address (R53), and a table word is read as the decoder reads memory. -/
theorem test_decode_byte_order :
    decode [0x6A, 0x2F, 0x00] = .ok (.ldByte 10 0x2F, [0x00]) ∧ decode [0x6A] = .error .truncated ∧
    decodeTableWord 16 0x6A2F = some (.ldByte 10 0x2F) := by
  decide

/-- The syntax of R85, with the optional operand. -/
theorem test_assembly :
    (Instr.drw 0 10 5).assembly = "DRW V0, VA, 0x5" ∧ (Instr.ldI 0x2F0).assembly = "LD I, 0x2F0" ∧
    (Instr.shr 2 0).assembly = "SHR V2" ∧ (Instr.shl 2 1).assembly = "SHL V2, V1" ∧
    (Instr.storeRegs 15).assembly = "LD [I], VF" := by decide

/-- The codes of R243 and R247, and the derived output of R256. -/
theorem test_codes :
    [FaultKind.unknownOpcode, .stackOverflow, .stackUnderflow, .memoryOutOfRange, .pcMisaligned,
      .keyIndexOutOfRange].map FaultKind.code = [1, 2, 3, 4, 5, 6] ∧ Fault.code .romTooLarge = 16 ∧
    State.reset.soundActive = false ∧ State.soundActive { State.reset with st := 1 } = true := by decide

/-! ## Single steps -/

/-- DSP-3: turning a set pixel off is a collision, and the frame is presented. -/
theorem test_drw_collision :
    look (exec (.drw 0 1 1) { State.reset with i := 0x300, mem := [(0x300, 0x80)], fb := FrameBuffer.toggle blankFrame 0 0 })
      (fun t => (FrameBuffer.pixel t.fb 0 0, t.reg VF, t.presents.length)) = some (false, 1, 1) := by decide

/-- DSP-5: columns past 63 and rows past 31 are clipped, not wrapped. -/
theorem test_drw_clips :
    look (exec (.drw 0 1 2)
        { (State.reset.setReg 0 0x3E).setReg 1 0x1F with i := 0x300, mem := [(0x300, 0xFF), (0x301, 0xFF)] })
      (fun t => [FrameBuffer.pixel t.fb 31 62, FrameBuffer.pixel t.fb 31 63, FrameBuffer.pixel t.fb 31 0,
        FrameBuffer.pixel t.fb 0 62]) = some [true, true, false, false] := by decide

/-- DSP-1. -/
theorem test_cls :
    look (exec .cls { State.reset with fb := FrameBuffer.toggle blankFrame 10 20 })
      (fun t => (FrameBuffer.pixel t.fb 10 20, t.presents.length)) = some (false, 1) := by decide

/-- CF-1. -/
theorem test_jp : look (step (small 0x1234 [])) (fun t => t.pc) = some 0x234 := by decide

/-- CF-8: a call in the last word pushes 0x1000. -/
theorem test_call_last_word :
    look (exec (.call 0x200) { State.reset with pc := 0xFFE }) (fun t => (t.pc, t.sp, t.stack[0])) =
      some (0x200, 1, 0x1000) := by decide

/-- CF-7: the 17th push. -/
theorem test_call_overflow :
    look (exec (.call 0x400) { State.reset with sp := 16 }) (fun t => (t.pc, t.rs)) =
      some (0x200, .faulted ⟨.stackOverflow, some 0x2400, 0x200, none⟩) := by decide

/-- CF-5. -/
theorem test_ret :
    look (exec .ret { State.reset with pc := 0x300, sp := 1, stack := State.reset.stack.set 0 0x206 })
      (fun t => (t.pc, t.sp)) = some (0x206, 0) := by decide

/-- CF-6. -/
theorem test_ret_underflow :
    look (step (small 0x00EE [])) (fun t => (t.pc, t.rs)) = some (0x200, halted) := by decide

/-- CF-11: always `V0`. -/
theorem test_jpV0 : look (step (small 0xB500 [(0, 0x02), (5, 0x10)])) (fun t => t.pc) = some 0x502 := by decide

/-- CF-14 to CF-17. -/
theorem test_skips_byte :
    look (step (small 0x3342 [(3, 0x42)])) (fun t => t.pc) = some 0x204 ∧
    look (step (small 0x3342 [(3, 0x41)])) (fun t => t.pc) = some 0x202 ∧
    look (step (small 0x4342 [(3, 0x42)])) (fun t => t.pc) = some 0x202 ∧
    look (step (small 0x4342 [(3, 0x41)])) (fun t => t.pc) = some 0x204 := by decide

/-- CF-18, CF-19, CF-21, CF-22. -/
theorem test_skips_register :
    look (step (small 0x5120 [(1, 7), (2, 7)])) (fun t => t.pc) = some 0x204 ∧
    look (step (small 0x5120 [(1, 7), (2, 8)])) (fun t => t.pc) = some 0x202 ∧
    look (step (small 0x9120 [(1, 7), (2, 8)])) (fun t => t.pc) = some 0x204 ∧
    look (step (small 0x9120 [(1, 7), (2, 7)])) (fun t => t.pc) = some 0x202 := by decide

/-- ALU-1, ALU-3: the sum wraps and sets no flag. -/
theorem test_byte_load_and_add :
    look (step (small 0x6A2F [])) (fun t => t.reg 10) = some 0x2F ∧
    look (step (small 0x7003 [(0, 0xFE), (15, 0x55)])) (fun t => (t.reg 0, t.reg VF)) = some (0x01, 0x55) := by decide

/-- ALU-6 to ALU-9. -/
theorem test_moves_and_bitwise :
    look (step (small 0x8010 [(1, 0x09)])) (fun t => t.reg 0) = some 0x09 ∧
    look (step (small 0x8011 [(0, 0x0F), (1, 0xF0), (15, 0x55)])) (fun t => (t.reg 0, t.reg VF)) = some (0xFF, 0x55) ∧
    look (step (small 0x8012 [(0, 0x3C), (1, 0x0F)])) (fun t => t.reg 0) = some 0x0C ∧
    look (step (small 0x8013 [(0, 0x3C), (1, 0x0F)])) (fun t => t.reg 0) = some 0x33 := by decide

/-- ALU-13, ALU-19, ALU-28. -/
theorem test_add_and_subtract :
    look (step (small 0x8014 [(0, 0xC8), (1, 0x64)])) (fun t => (t.reg 0, t.reg VF)) = some (0x2C, 1) ∧
    look (step (small 0x8015 [(0, 0x03), (1, 0x05)])) (fun t => (t.reg 0, t.reg VF)) = some (0xFE, 0) ∧
    look (step (small 0x8017 [(0, 0x03), (1, 0x05)])) (fun t => (t.reg 0, t.reg VF)) = some (0x02, 1) := by decide

/-- ALU-16, ALU-17, ALU-23: the flag is written last, from the old operands. -/
theorem test_flag_last :
    look (step (small 0x8F14 [(1, 0x01), (15, 0xFF)])) (fun t => t.reg VF) = some 1 ∧
    look (step (small 0x80F4 [(0, 0x01), (15, 0x01)])) (fun t => (t.reg 0, t.reg VF)) = some (0x02, 0) ∧
    look (step (small 0x8F15 [(1, 0x20), (15, 0x10)])) (fun t => t.reg VF) = some 0 := by decide

/-- ALU-26, ALU-31: `y` is not read. -/
theorem test_shifts :
    look (step (small 0x8216 [(1, 0xFF), (2, 0x04)])) (fun t => (t.reg 2, t.reg VF)) = some (0x02, 0) ∧
    look (step (small 0x820E [(2, 0x81)])) (fun t => (t.reg 2, t.reg VF)) = some (0x02, 1) := by decide

/-- ALU-34. -/
theorem test_rnd :
    look (step { small 0xC30F [] with schedule := [.step 0 0xA7] }) (fun t => t.reg 3) = some 0x07 := by decide

/-- IDX-1, IDX-4, IDX-7. -/
theorem test_index :
    look (step (small 0xA2F0 [])) (fun t => t.i) = some 0x2F0 ∧
    look (exec (.addI 0) { State.reset.setReg 0 1 with i := 0xFFFF }) (fun t => (t.i, t.reg VF)) = some (0, 0) ∧
    look (step (small 0xF529 [(5, 0x10)])) (fun t => t.i) = some 0x050 := by decide

/-- IDX-9, IDX-14. -/
theorem test_bcd :
    look (exec (.ldBcd 1) { State.reset.setReg 1 0x7B with i := 0x300 }) (fun t => t.mem) =
      some [(0x300, 1), (0x301, 2), (0x302, 3)] ∧
    look (exec (.ldBcd 1) { State.reset.setReg 1 0xC8 with i := 0xFFE }) (fun t => (t.mem, t.rs)) =
      some ([], .faulted ⟨.memoryOutOfRange, some 0xF133, 0x200, some 0x1000⟩) := by decide

/-- IDX-15. -/
theorem test_storeRegs :
    look (exec (.storeRegs 1) { ((State.reset.setReg 0 1).setReg 1 2).setReg 2 3 with i := 0x300 })
      (fun t => (t.mem, t.i)) = some ([(0x300, 1), (0x301, 2)], 0x300) := by decide

/-- IDX-19, IDX-21. -/
theorem test_loadRegs :
    look (exec (.loadRegs 2) { State.reset with i := 0x300, mem := [(0x300, 2), (0x301, 5), (0x302, 4), (0x303, 9)] })
      (fun t => [t.reg 0, t.reg 1, t.reg 2, t.reg 3]) = some [2, 5, 4, 0] ∧
    look (exec (.loadRegs 0) { State.reset with i := 0xFFFF }) (fun t => t.rs) =
      some (.faulted ⟨.memoryOutOfRange, some 0xF065, 0x200, some 0xFFFF⟩) := by decide

/-- KEY-1 to KEY-4. -/
theorem test_key_skips :
    look (step { small 0xE19E [(1, 7)] with schedule := [.step 0x0080 0] }) (fun t => t.pc) = some 0x204 ∧
    look (step { small 0xE19E [(1, 7)] with schedule := [.step 0x0040 0] }) (fun t => t.pc) = some 0x202 ∧
    look (step { small 0xE1A1 [(1, 7)] with schedule := [.step 0 0] }) (fun t => t.pc) = some 0x204 ∧
    look (step { small 0xE1A1 [(1, 7)] with schedule := [.step 0x0080 0] }) (fun t => t.pc) = some 0x202 := by decide

/-- KEY-6. -/
theorem test_key_index_fault :
    look (step { small 0xE19E [(1, 0x10)] with schedule := [.step 0xFFFF 0] }) (fun t => (t.pc, t.rs)) =
      some (0x200, .faulted ⟨.keyIndexOutOfRange, some 0xE19E, 0x200, some 0x10⟩) := by decide

/-- KEY-8 (its first step), KEY-10. -/
theorem test_key_wait :
    look (step (small 0xF30A [(3, 0x55)])) (fun t => (t.pc, t.reg 3, t.rs)) = some (0x202, 0x55, .awaitingKey 3) ∧
    look (State.operate { State.reset with rs := .awaitingKey 3, pc := 0x206 } (.keyEvent 0x0280))
      (fun t => (t.reg 3, t.pc, t.rs)) = some (7, 0x206, .running) := by decide

/-- KEY-13 to KEY-15. -/
theorem test_timers :
    look (exec (.ldVxDt 4) { State.reset with dt := 0x3C }) (fun t => t.reg 4) = some 0x3C ∧
    look (step (small 0xFA15 [(10, 5)])) (fun t => t.dt) = some 5 ∧
    look (step (small 0xF118 [(1, 0x10)])) (fun t => t.st) = some 0x10 := by decide

/-- TMR-1, TMR-4, and saturation at 0. -/
theorem test_tick :
    look (State.operate { State.reset with dt := 5, st := 2 } .tickTimers) (fun t => (t.dt, t.st)) = some (4, 1) ∧
    look (State.operate { State.reset with dt := 5, rs := halted } .tickTimers) (fun t => (t.dt, t.st)) = some (5, 0) := by
  decide

/-- STP-2, STP-5, STP-6, STP-7: the faults of a fetch and their order. -/
theorem test_fetch_faults :
    look (step { State.reset with pc := 0x1001 }) (fun t => t.rs) =
      some (.faulted ⟨.pcMisaligned, none, 0x1001, some 0x1001⟩) ∧
    look (step { State.reset with pc := 0x10FE }) (fun t => t.rs) =
      some (.faulted ⟨.memoryOutOfRange, none, 0x10FE, some 0x10FE⟩) ∧
    look (step (small 0x0000 [])) (fun t => (t.pc, t.rs)) =
      some (0x200, .faulted ⟨.unknownOpcode, some 0, 0x200, some 0⟩) := by decide

/-- RST-5 and the font of R38. -/
theorem test_reset_image :
    look (State.operate State.reset (.reset [0x12, 0x00])) (fun t => (t.readByte 0x200, t.readByte 0x201, t.readByte 0)) =
      some (0x12, 0x00, 0xF0) := by decide

/-- The reset memory is in canonical form, and so is one written to; writing a reset value back takes the cell out. -/
theorem test_memory_wf :
    Memory.wf State.reset.font State.reset.mem ∧
    Memory.wf defaultFont (Memory.writeBytes defaultFont [] 0x300 [1, 0, 2]) ∧
    Memory.write defaultFont [(0, 0x11)] 0 0xF0 = [] := by decide

/-! ## Witnesses for the hypotheses of the obligations

Each shows concrete states and operands that meet all the hypotheses of the obligation it names, at a boundary of each
clause. Obligations without hypotheses are not listed. -/

/-- A running state whose `PC` is that word and whose next instruction word is unknown (0x0000). -/
def atPc (a : Word) : State := { State.reset with pc := a }

theorem test_meets_EncodeThenDecode : (Instr.drw 0 15 15).wellFormed = true ∧ (Instr.loadRegs 15).wellFormed = true := by
  decide

theorem test_meets_DecodeThenEncode : decodeWord 0xD01F = some (.drw 0 1 15) ∧ decodeWord 0x821E = some (.shl 2 1) := by
  decide

/-- Both clauses; the second at the last word of memory. -/
theorem test_meets_UnknownOpcode :
    (∀ r ∈ opcodeTable, r.covers 0x5121 = false) ∧
    (atPc 0xFFE).rs = .running ∧ (atPc 0xFFE).pc.toNat % 2 = 0 ∧ (atPc 0xFFE).pc.toNat ≤ 0xFFE ∧
    (0x0000 : Word).toNat =
      ((atPc 0xFFE).readByte (atPc 0xFFE).pc.toNat).toNat * 256 +
        ((atPc 0xFFE).readByte ((atPc 0xFFE).pc.toNat + 1)).toNat ∧
    decodeWord 0x0000 = none := by decide

/-- Both clauses: a schedule that names the inputs, and an empty one; at the last word of memory. -/
theorem test_meets_StepRuns :
    let s : State := { atPc 0xFFE with mem := [(0xFFE, 0x6A), (0xFFF, 0x01)] }
    s.rs = .running ∧ s.pc.toNat % 2 = 0 ∧ s.pc.toNat ≤ 0xFFE ∧
    decode [s.readByte s.pc.toNat, s.readByte (s.pc.toNat + 1)] = .ok (.ldByte 10 0x01, []) ∧ s.schedule = [] ∧
    ({ s with schedule := [.step 0 0] } : State).schedule = .step 0 0 :: [] := by decide

/-- Both clauses, at the lowest addresses of each. -/
theorem test_meets_FetchFaults :
    (atPc 0x001).rs = .running ∧ (atPc 0x001).pc.toNat % 2 = 1 ∧
    (atPc 0x1000).rs = .running ∧ (atPc 0x1000).pc.toNat % 2 = 0 ∧ (atPc 0x1000).pc.toNat > 0xFFE := by decide

/-- A named step, an empty schedule, and a named tick. -/
theorem test_meets_StepIsNoOp :
    let s : State := { State.reset with rs := .awaitingKey 15 }
    s.rs = .awaitingKey 15 ∧ s.schedule = [] ∧
    ({ s with schedule := [.step 0xFFFF 0xFF] } : State).schedule = .step 0xFFFF 0xFF :: [] ∧
    ({ s with schedule := [.tickTimers] } : State).schedule = .tickTimers :: [] := by decide

/-- An operation that is no reset, named, and an empty schedule. -/
theorem test_meets_OnlyResetLeaves :
    let s : State := { State.reset with rs := halted }
    s.rs = halted ∧ s.schedule = [] ∧ ({ s with schedule := [.keyEvent 1] } : State).schedule = .keyEvent 1 :: [] ∧
    ∀ rom, HostOp.keyEvent 1 ≠ .reset rom :=
  ⟨rfl, rfl, rfl, fun _ h => (by cases h)⟩

/-- A fault of the fetch and a fault of an instruction. -/
theorem test_meets_FaultingStep :
    State.reset.rs = .running ∧
    (∃ t, (atPc 0x201).stepOp 0 0 = .next t ∧ t.rs = .faulted ⟨.pcMisaligned, none, 0x201, some 0x201⟩) ∧
    (∃ t, (small 0x00EE []).stepOp 0 0 = .next t ∧ t.rs = .faulted ⟨.stackUnderflow, some 0x00EE, 0x200, none⟩) :=
  ⟨rfl, ⟨_, rfl, by decide⟩, ⟨_, rfl, by decide⟩⟩

/-- A jump, and a return from the deepest stack. -/
theorem test_meets_ProgramCounter :
    (∃ t, exec (.jp 0xFFF) State.reset = .next t ∧ ∀ report, t.rs ≠ .faulted report) ∧
    (∃ t, exec .ret { State.reset with sp := 16 } = .next t ∧ ∀ report, t.rs ≠ .faulted report) :=
  ⟨⟨_, rfl, fun _ h => (by cases h)⟩, ⟨_, rfl, fun _ h => (by cases h)⟩⟩

/-- An instruction that faults, one at the last depth where it does not, and the wait. -/
theorem test_meets_InstructionFaults :
    State.reset.rs = .running ∧
    (∃ t, exec (.call 0x300) { State.reset with sp := 16 } = .next t) ∧
    faultCondition { State.reset with sp := 16 } (.call 0x300) .stackOverflow ∧
    (∃ t, exec (.call 0x300) { State.reset with sp := 15 } = .next t) ∧
    (∀ k, ¬ faultCondition { State.reset with sp := 15 } (.call 0x300) k) ∧
    (∃ t, exec (.ldVxKey 3) State.reset = .next t) ∧ (∀ k, ¬ faultCondition State.reset (.ldVxKey 3) k) :=
  ⟨rfl, ⟨_, rfl⟩, ⟨rfl, rfl⟩, ⟨_, rfl⟩, fun _ h => absurd h.2 (by decide), ⟨_, rfl⟩, fun _ h => h⟩

/-- Each kind of access, with its last byte at 0x1000, and the greatest `I`. -/
theorem test_meets_OutOfRange :
    (∀ p ∈ [(Instr.drw 0 1 1, 0x1000), (.drw 0 1 15, 0xFF2), (.ldBcd 0, 0xFFE), (.storeRegs 15, 0xFF1),
        (.loadRegs 0, 0xFFFF)],
      0 < accessCount p.1 ∧ (BitVec.ofNat 16 p.2).toNat + accessCount p.1 > 0x1000) := by decide

/-- Height 0 wherever `I` points, and the last sprite that fits. -/
theorem test_meets_DrwToggles :
    (0 = 0 ∨ ({ State.reset with i := 0xFFFF } : State).i.toNat + 0 ≤ 0x1000) ∧
    (15 = 0 ∨ ({ State.reset with i := 0xFF1 } : State).i.toNat + 15 ≤ 0x1000) := by decide

/-- With `x` and `y` below 15 the position is the same; so it is with `x` = 15 where the first draw leaves `VF` as it
was. -/
theorem test_meets_DrawingTwice :
    (∃ t, exec (.drw 0 1 5) State.reset = .next t ∧ t.reg 0 = State.reset.reg 0 ∧ t.reg 1 = State.reset.reg 1) ∧
    (∃ t, exec (.drw 15 1 5) State.reset = .next t ∧ t.reg 15 = State.reset.reg 15 ∧ t.reg 1 = State.reset.reg 1) ∧
    (5 = 0 ∨ State.reset.i.toNat + 5 ≤ 0x1000) :=
  ⟨⟨_, exec_drw_fits 0 1 5 (.inr (by decide)), by decide, by decide⟩,
   ⟨_, exec_drw_fits 15 1 5 (.inr (by decide)), by decide, by decide⟩, .inr (by decide)⟩

/-- A draw that completes, and an instruction that does not draw. -/
theorem test_meets_OnlyDrawAndClear :
    State.reset.rs = .running ∧
    (∃ t, exec (.drw 0 1 5) State.reset = .next t ∧ t.rs = .running ∧
      (Instr.drw 0 1 5 = .cls ∨ ∃ x y n, Instr.drw 0 1 5 = .drw x y n)) ∧
    (∃ t, exec (.jp 0x300) State.reset = .next t ∧
      ¬ (Instr.jp 0x300 = .cls ∨ ∃ x y n, Instr.jp 0x300 = .drw x y n)) :=
  ⟨rfl, ⟨_, exec_drw_fits 0 1 5 (.inr (by decide)), rfl, .inr ⟨0, 1, 5, rfl⟩⟩, ⟨_, rfl, by simp⟩⟩

/-- The last depth with room and the full stack. -/
theorem test_meets_Call :
    ({ State.reset with sp := 15 } : State).sp.val < 16 ∧ ({ State.reset with sp := 16 } : State).sp.val = 16 := by decide

/-- One entry, the deepest stack, and none; with the slot of each clause. -/
theorem test_meets_Ret :
    (0 < ({ State.reset with sp := 1 } : State).sp.val ∧ (0 : Fin 16).val + 1 = ({ State.reset with sp := 1 } : State).sp.val) ∧
    (0 < ({ State.reset with sp := 16 } : State).sp.val ∧
      (15 : Fin 16).val + 1 = ({ State.reset with sp := 16 } : State).sp.val) ∧
    State.reset.sp.val = 0 := by decide

/-- A call from depth 15, and the state it leaves as the one that returns. -/
theorem test_meets_CallThenRet :
    ({ State.reset with sp := 15 } : State).sp.val < 16 ∧
    ∃ t, exec (.call 0x300) { State.reset with sp := 15 } = .next t ∧ ∃ u : State, u.stack = t.stack ∧ u.sp = t.sp :=
  ⟨by decide, _, rfl, _, rfl, rfl⟩

theorem test_meets_OnlyCallAndRet :
    (∃ t, exec (.jp 0x300) State.reset = .next t) ∧ (∀ nnn, Instr.jp 0x300 ≠ .call nnn) ∧ Instr.jp 0x300 ≠ .ret :=
  ⟨⟨_, rfl⟩, fun _ h => (by cases h), fun h => (by cases h)⟩

/-- A register beside the destination, and the first register beyond a loaded block. -/
theorem test_meets_Registers :
    (∃ t, exec (.addReg 0 1) State.reset = .next t) ∧ mayWrite (.addReg 0 1) 1 = false ∧
    (∃ t, exec (.loadRegs 14) State.reset = .next t) ∧ mayWrite (.loadRegs 14) 15 = false :=
  ⟨⟨_, rfl⟩, by decide, ⟨_, exec_loadRegs_fits 14 (by decide)⟩, by decide⟩

/-- Memory in canonical form with the last `I` that fits, and the first that does not. -/
theorem test_meets_Bcd :
    Memory.wf State.reset.font State.reset.mem ∧ ({ State.reset with i := 0xFFD } : State).i.toNat + 2 ≤ 0xFFF ∧
    ({ State.reset with i := 0xFFE } : State).i.toNat + 2 > 0xFFF := by decide

/-- The last block that fits, the smallest and the greatest. -/
theorem test_meets_Block :
    Memory.wf State.reset.font State.reset.mem ∧
    ({ State.reset with i := 0xFFF } : State).i.toNat + (0 : Reg).val ≤ 0xFFF ∧
    ({ State.reset with i := 0xFF0 } : State).i.toNat + (15 : Reg).val ≤ 0xFFF := by decide

/-- The bytes on both sides of the stored ones. -/
theorem test_meets_MemoryChanges :
    (∃ t, exec (.ldBcd 0) { State.reset with i := 0x300 } = .next t) ∧
    (0x2FF < ({ State.reset with i := 0x300 } : State).i.toNat) ∧
    ({ State.reset with i := 0x300 } : State).i.toNat + storeCount (.ldBcd 0) ≤ 0x303 :=
  ⟨⟨_, exec_ldBcd_fits 0 (by decide)⟩, by decide, by decide⟩

theorem test_meets_OnlyThreeWriteI :
    (∃ t, exec (.storeRegs 3) State.reset = .next t) ∧ (∀ nnn, Instr.storeRegs 3 ≠ .ldI nnn) ∧
    (∀ x, Instr.storeRegs 3 ≠ .addI x) ∧ (∀ x, Instr.storeRegs 3 ≠ .ldFont x) :=
  ⟨⟨_, exec_storeRegs_fits 3 (by decide)⟩, fun _ h => (by cases h), fun _ h => (by cases h), fun _ h => (by cases h)⟩

/-- The last word of memory as the next one, with a block and digits that end in it: the block covers both its bytes or
its high byte alone, the digits cover both. -/
theorem test_meets_StoredWord :
    Memory.wf State.reset.font State.reset.mem ∧ (atPc 0xFFC).pc.toNat % 2 = 0 ∧ (atPc 0xFFC).pc.toNat + 2 ≤ 0xFFE ∧
    ({ atPc 0xFFC with i := 0xFF0 } : State).i.toNat + (15 : Reg).val ≤ 0xFFF ∧
    ({ atPc 0xFFC with i := 0xFF0 } : State).i.toNat + (14 : Reg).val = (atPc 0xFFC).pc.toNat + 2 ∧
    ({ atPc 0xFFC with i := 0xFFD } : State).i.toNat + 2 ≤ 0xFFF := by decide

/-- Both clauses, on both sides of the limit. -/
theorem test_meets_KeySkips :
    ((State.reset.setReg 1 0x0F).reg 1).toNat ≤ 0xF ∧ ((State.reset.setReg 1 0x10).reg 1).toNat > 0xF := by decide

/-- A wait with a mask that is not empty; an empty mask; a state that does not wait. -/
theorem test_meets_KeyEvent :
    (({ State.reset with rs := .awaitingKey 15 } : State).rs = .awaitingKey 15 ∧ (0x8000 : Word) ≠ 0) ∧
    (∀ r, State.reset.rs ≠ .awaitingKey r) :=
  ⟨⟨rfl, by decide⟩, fun _ h => (by cases h)⟩

theorem test_meets_WaitLasts :
    let ops : List HostOp := [.step 0x0080 1, .tickTimers, .keyEvent 0]
    let s : State := { State.reset with rs := .awaitingKey 3, schedule := ops ++ [.keyEvent 0x0280] }
    s.rs = .awaitingKey 3 ∧ s.schedule = ops ++ .keyEvent 0x0280 :: [] ∧ (0x0280 : Word) ≠ 0 ∧
    ∀ op ∈ ops, op = .tickTimers ∨ op = .keyEvent 0 ∨ ∃ keys rnd, op = .step keys rnd := by
  refine ⟨rfl, rfl, by decide, ?_⟩
  simp

/-- Both clauses. -/
theorem test_meets_Tick :
    (∀ report, ({ State.reset with rs := .awaitingKey 3 } : State).rs ≠ .faulted report) ∧
    ({ State.reset with rs := halted } : State).rs = halted :=
  ⟨fun _ h => (by cases h), rfl⟩

theorem test_meets_Timers :
    (∃ t, exec (.ldStVx 1) State.reset = .next t) ∧ (∀ x, Instr.ldStVx 1 ≠ .ldDtVx x) ∧
    (∃ t, exec (.ldDtVx 1) State.reset = .next t) ∧ (∀ x, Instr.ldDtVx 1 ≠ .ldStVx x) :=
  ⟨⟨_, rfl⟩, fun _ h => (by cases h), ⟨_, rfl⟩, fun _ h => (by cases h)⟩

/-- For each input an instruction that reads the other one. -/
theorem test_meets_Inputs :
    (∃ t, exec (.rnd 0 0xFF) State.reset = .next t) ∧ (∀ x, Instr.rnd 0 0xFF ≠ .skp x) ∧ (∀ x, Instr.rnd 0 0xFF ≠ .sknp x) ∧
    (∃ t, exec (.skp 0) State.reset = .next t) ∧ (∀ x kk, Instr.skp 0 ≠ .rnd x kk) :=
  ⟨⟨_, rfl⟩, fun _ h => (by cases h), fun _ h => (by cases h), ⟨_, exec_skp_key 0 (by decide)⟩, fun _ _ h => (by cases h)⟩

/-- Both clauses. -/
theorem test_meets_NoSoundTimer :
    (∃ t, exec (.ldVxDt 0) State.reset = .next t) ∧ (∀ x, Instr.ldVxDt 0 ≠ .ldStVx x) ∧
    (∃ t, exec (.ldStVx 0) State.reset = .next t) ∧ ∃ x, Instr.ldStVx 0 = .ldStVx x :=
  ⟨⟨_, rfl⟩, fun _ h => (by cases h), ⟨_, rfl⟩, 0, rfl⟩

/-- The longest image that fits and the shortest that does not (RST-1, RST-2). -/
theorem test_meets_Reset :
    (List.replicate 3584 (0 : Byte)).length ≤ 3584 ∧ (List.replicate 3585 (0 : Byte)).length > 3584 := by
  rw [List.length_replicate, List.length_replicate]; decide

/-- The invariant holds at reset, which steps to a fault (RST-3), and at a call from the last word of memory. -/
theorem test_meets_StepKeepsRange :
    State.reset.Inv ∧ (∃ t, step State.reset = .next t) ∧ (small 0x1FFF []).Inv ∧ ∃ t, step (small 0x1FFF []) = .next t :=
  ⟨⟨by decide, by decide, fun _ h => absurd h (by simp [State.reset])⟩, ⟨_, rfl⟩,
   ⟨by decide, by decide, fun _ h => absurd h (by simp [small, State.withFetchWord, State.withFetchBytes, State.reset])⟩,
   ⟨_, rfl⟩⟩

/-- A running state that a step halts, and a halted one. -/
theorem test_meets_StepKeepsReports :
    State.reset.FaultInv ∧ (∃ t, step State.reset = .next t) ∧ ({ State.reset with rs := halted } : State).FaultInv ∧
    ∃ t, step { State.reset with rs := halted } = .next t :=
  ⟨fun _ h => (by cases h), ⟨_, rfl⟩, fun _ h => (by cases h; exact ⟨rfl, rfl, rfl, rfl⟩), ⟨_, rfl⟩⟩

/-- The report of IDX-14 fits its state; the same report with the word of an instruction that accesses no memory does
not. -/
theorem test_reportFits_own_fault :
    State.reportFits { State.reset with i := 0xFFE } ⟨.memoryOutOfRange, some 0xF133, 0x200, some 0x1000⟩ ∧
    ¬ State.reportFits { State.reset with i := 0xFFE } ⟨.memoryOutOfRange, some 0x6A2F, 0x200, some 0x1000⟩ := by
  refine ⟨⟨rfl, .inr ⟨0xF133, .ldBcd 1, by decide⟩⟩, ?_⟩
  rintro ⟨-, ⟨h, -⟩ | ⟨w, i, hw, hd, hcount, -⟩⟩
  · cases h
  · cases hw
    cases (show some (.ldByte 10 0x2F) = some i from hd)
    exact absurd hcount (by decide)

theorem test_meets_Canonical :
    Memory.wf defaultFont [(0, 0x11), (0x200, 0x6A)] ∧
    ∀ a, Memory.read defaultFont [(0, 0x11), (0x200, 0x6A)] a = Memory.read defaultFont [(0, 0x11), (0x200, 0x6A)] a :=
  ⟨by decide, fun _ => rfl⟩

end Sys2Proof.Tests
end

/-! PROOFS. Unknown opcodes: a word that no row of the table covers does not decode (R83), and a step that fetches such a
word faults before any change (R103). -/

namespace Sys2Proof.Machine

/-! ## Where the opcode map has no instruction (R80 to R82) -/

theorem decodeAlu_eq_none (x y : Reg) {n : Nat} (h7 : 7 < n) (hE : n ≠ 0xE) : decodeAlu x y n = none := by
  unfold decodeAlu
  split
  case h_10 => rfl
  all_goals omega

theorem decodeKeySkip_eq_none (x : Reg) {kk : Nat} (h9E : kk ≠ 0x9E) (hA1 : kk ≠ 0xA1) :
    decodeKeySkip x kk = none := by
  unfold decodeKeySkip
  split
  case h_3 => rfl
  all_goals omega

theorem decodeMisc_eq_none (x : Reg) {kk : Nat} (h : kk ∉ [0x07, 0x0A, 0x15, 0x18, 0x1E, 0x29, 0x33, 0x55, 0x65]) :
    decodeMisc x kk = none := by
  unfold decodeMisc
  split
  case h_10 => rfl
  all_goals exact absurd (by decide) h

/-- A word outside every row of the opcode table does not decode (R83). With the masks read as fields, the rows say which
fields the word cannot have; the split is on its top field, in the order of `decodeWord`. -/
theorem decodeWord_eq_none_of_uncovered {w : Word} (h : ∀ r ∈ opcodeTable, r.covers w = false) :
    decodeWord w = none := by
  -- `Word` is unfolded so that the patterns are literals of `BitVec 16`, which `BitVec.reduceToNat` evaluates.
  simp only [Word, opcodeTable, opcodeRowsLow, opcodeRowsAlu, opcodeRowsHigh, List.cons_append, List.nil_append,
    List.forall_mem_cons, OpcodeRow.covers, beq_eq_false_iff_ne, ne_eq, and_maskFFFF,
    eq_of_maskF000, eq_of_maskF00F, eq_of_maskF0FF, BitVec.reduceToNat] at h
  obtain ⟨hcls, hret, hfields⟩ := h
  unfold decodeWord
  split
  case h_1 => rw [if_neg hcls, if_neg hret]
  case h_6 hmajor => rw [if_neg (by omega)]
  case h_9 hmajor => exact decodeAlu_eq_none _ _ (by omega) (by omega)
  case h_10 hmajor => rw [if_neg (by omega)]
  case h_15 hmajor => exact decodeKeySkip_eq_none _ (by omega) (by omega)
  case h_16 hmajor =>
    apply decodeMisc_eq_none
    simp only [List.mem_cons, List.not_mem_nil, or_false]
    omega
  case h_17 => rfl
  -- Each of the other top fields is a row of its own, under the mask 0xF000.
  all_goals omega

/-! ## The step (R100 to R103) -/

/-- The word of two bytes, the first one high, is the word with that value (R53). -/
theorem wordOfBytes_eq_of_toNat {w : Word} {hi lo : Byte} (h : w.toNat = hi.toNat * 256 + lo.toNat) :
    wordOfBytes hi lo = w :=
  BitVec.eq_of_toNat_eq (by rw [wordOfBytes_toNat, h])

/-- A running step that fetches an unknown word: the inputs are latched, and the fault is raised where the step began. -/
theorem State.stepOp_unknown {s : State} {w : Word} (keys : Word) (rnd : Byte) (hrun : s.rs = .running)
    (hfetch : s.fetch = .ok w) (hd : decodeWord w = none) :
    s.stepOp keys rnd = { s with keys := keys, rnd := rnd }.raise .unknownOpcode (some w) (some w.toNat) := by
  have hlatched : { s with keys := keys, rnd := rnd }.fetch = .ok w := hfetch
  rw [State.stepOp_running hrun, State.cycle_unknown hlatched hd]

/-- Settles O5: the first clause by the table's masks read as fields, the second by the rule for a step that fetches an
unknown word. -/
theorem unknownOpcodeFaultsBeforeAnyChange : Obligations.UnknownOpcodeFaultsBeforeAnyChange := by
  refine ⟨fun w => decodeWord_eq_none_of_uncovered, fun s keys rnd w hrun heven hle hw hd => ?_⟩
  have hfetch : s.fetch = .ok w := by rw [State.fetch_ok heven hle, wordOfBytes_eq_of_toNat hw]
  rw [State.stepOp_unknown keys rnd hrun hfetch hd, State.raise]

end Sys2Proof.Machine

/-! PROOFS. The display: what decodes to CLS and what it does (R121), and which instructions touch the framebuffer and the
present events (R120). -/

namespace Sys2Proof.Machine

/-! ## Only 0x00E0 decodes to CLS (R77) -/

theorem decodeAlu_ne_cls (x y : Reg) (n : Nat) : decodeAlu x y n ≠ some .cls := by
  unfold decodeAlu
  split <;> simp

theorem decodeKeySkip_ne_cls (x : Reg) (kk : Nat) : decodeKeySkip x kk ≠ some .cls := by
  unfold decodeKeySkip
  split <;> simp

theorem decodeMisc_ne_cls (x : Reg) (kk : Nat) : decodeMisc x kk ≠ some .cls := by
  unfold decodeMisc
  split <;> simp

/-- The split is on the top field, in the order of `decodeWord`: CLS stands under the field 0 only. -/
theorem eq_of_decodeWord_eq_cls {w : Word} (h : decodeWord w = some .cls) : w = 0x00E0 := by
  unfold decodeWord at h
  split at h
  case h_1 =>
    by_contra hw
    rw [if_neg hw] at h
    split at h <;> cases h
  case h_6 => split at h <;> cases h
  case h_9 => exact absurd h (decodeAlu_ne_cls _ _ _)
  case h_10 => split at h <;> cases h
  case h_15 => exact absurd h (decodeKeySkip_ne_cls _ _)
  case h_16 => exact absurd h (decodeMisc_ne_cls _ _)
  -- Under each of the other top fields there is one instruction, or none.
  all_goals cases h

/-- CLS changes the framebuffer, the present events and `PC`, and no other part of the state. -/
theorem exec_cls_frame (s : State) :
    SameExcept [.frame, .presents, .pc] s { s.advance with fb := blankFrame }.present :=
  ⟨.inr (State.reg_congr rfl), .inr rfl, .inl (by decide), .inr ⟨rfl, rfl⟩, .inr rfl, .inr rfl, .inl (by decide),
    .inr rfl, .inr (State.readByte_congr rfl rfl), .inl (by decide), rfl, rfl, rfl, rfl, rfl⟩

/-- Settles O15: the word by the split on the top field, the effect by the blank framebuffer's pixels. -/
theorem clsClearsAndPresents : Obligations.ClsClearsAndPresents := by
  refine ⟨fun w => ⟨fun hw => ?_, eq_of_decodeWord_eq_cls⟩, fun s => ?_⟩
  · rw [hw]
    exact Laws.RoundTrip.cls rfl
  · exact ⟨_, rfl, fun _ _ _ _ => FrameBuffer.pixel_blank, rfl, rfl, exec_cls_frame s⟩

/-! ## The instructions that draw present the framebuffer (R120) -/

/-- A draw that does not fault presents the framebuffer it has drawn, once. -/
theorem exec_drw_presents {x y : Reg} {n : Nat} {s t : State} (h : exec (.drw x y n) s = .next t)
    (hrun : t.rs = .running) : t.presents = t.fb :: s.presents := by
  by_cases hfit : n = 0 ∨ s.i.toNat + n ≤ 0x1000
  · rw [exec_drw_fits x y n hfit] at h
    cases h
    rfl
  · rw [exec_drw_outside x y (by omega) (by omega)] at h
    cases h
    cases hrun

/-! ## The other instructions leave the display alone (R120) -/

/-- The instruction leaves the framebuffer as it was and presents nothing, whether it completes or faults. -/
def KeepsDisplay (i : Instr) (s : State) : Prop :=
  ∃ t, exec i s = .next t ∧ t.fb = s.fb ∧ t.presents = s.presents

/-- A ProgramFault changes the run state only (R243), so it leaves the display alone. -/
theorem keepsDisplay_of_raise {i : Instr} {s : State} {kind : FaultKind} {opcode : Option Word} {info : Option Nat}
    (h : exec i s = s.raise kind opcode info) : KeepsDisplay i s :=
  ⟨_, h, rfl, rfl⟩

theorem keepsDisplay_call (nnn : BitVec 12) (s : State) : KeepsDisplay (.call nnn) s := by
  by_cases hroom : s.sp.val < 16
  · exact ⟨_, exec_call_room nnn hroom, rfl, rfl⟩
  · exact keepsDisplay_of_raise (exec_call_full nnn (by omega))

theorem keepsDisplay_ret (s : State) : KeepsDisplay .ret s := by
  by_cases hheld : 0 < s.sp.val
  · exact ⟨_, exec_ret_held hheld, rfl, rfl⟩
  · exact keepsDisplay_of_raise (exec_ret_empty (by omega))

theorem keepsDisplay_skp (x : Reg) (s : State) : KeepsDisplay (.skp x) s := by
  by_cases hkey : (s.reg x).toNat < 16
  · exact ⟨_, exec_skp_key x hkey, rfl, rfl⟩
  · exact keepsDisplay_of_raise (exec_skp_outside x (by omega))

theorem keepsDisplay_sknp (x : Reg) (s : State) : KeepsDisplay (.sknp x) s := by
  by_cases hkey : (s.reg x).toNat < 16
  · exact ⟨_, exec_sknp_key x hkey, rfl, rfl⟩
  · exact keepsDisplay_of_raise (exec_sknp_outside x (by omega))

theorem keepsDisplay_ldBcd (x : Reg) (s : State) : KeepsDisplay (.ldBcd x) s := by
  by_cases hfit : s.i.toNat + 3 ≤ 0x1000
  · exact ⟨_, exec_ldBcd_fits x hfit, rfl, rfl⟩
  · exact keepsDisplay_of_raise (exec_ldBcd_outside x (by omega))

theorem keepsDisplay_storeRegs (x : Reg) (s : State) : KeepsDisplay (.storeRegs x) s := by
  by_cases hfit : s.i.toNat + (x.val + 1) ≤ 0x1000
  · exact ⟨_, exec_storeRegs_fits x hfit, rfl, rfl⟩
  · exact keepsDisplay_of_raise (exec_storeRegs_outside x (by omega))

theorem keepsDisplay_loadRegs (x : Reg) (s : State) : KeepsDisplay (.loadRegs x) s := by
  by_cases hfit : s.i.toNat + (x.val + 1) ≤ 0x1000
  · exact ⟨_, exec_loadRegs_fits x hfit, State.loadBlock_fb _ _ _, State.loadBlock_presents _ _ _⟩
  · exact keepsDisplay_of_raise (exec_loadRegs_outside x (by omega))

/-- Every instruction but CLS and DRW: those with a guard by their own lemmas, and the others complete in every state. -/
theorem keepsDisplay_of_not_display (s : State) {i : Instr} (h : ¬ (i = .cls ∨ ∃ x y n, i = .drw x y n)) :
    KeepsDisplay i s := by
  cases i with
  | cls => exact absurd (.inl rfl) h
  | drw x y n => exact absurd (.inr ⟨x, y, n, rfl⟩) h
  | call nnn => exact keepsDisplay_call nnn s
  | ret => exact keepsDisplay_ret s
  | skp x => exact keepsDisplay_skp x s
  | sknp x => exact keepsDisplay_sknp x s
  | ldBcd x => exact keepsDisplay_ldBcd x s
  | storeRegs x => exact keepsDisplay_storeRegs x s
  | loadRegs x => exact keepsDisplay_loadRegs x s
  | jp | jpV0 | seByte | sneByte | seReg | sneReg => exact ⟨_, rfl, rfl, rfl⟩
  | ldByte | addByte | ldReg | orReg | andReg | xorReg | addReg | subReg | shr | subnReg | shl | rnd =>
    exact ⟨_, rfl, rfl, rfl⟩
  | ldI | addI | ldFont | ldVxKey | ldVxDt | ldDtVx | ldStVx => exact ⟨_, rfl, rfl, rfl⟩

/-- Settles O19: CLS and DRW by what they present, every other instruction by `KeepsDisplay`. -/
theorem onlyDrawAndClearTouchTheFrame : Obligations.OnlyDrawAndClearTouchTheFrame := by
  refine fun i s t _ h => ⟨?_, fun hother => ?_⟩
  · rintro (rfl | ⟨x, y, n, rfl⟩) hrun
    · cases h
      rfl
    · exact exec_drw_presents h hrun
  · obtain ⟨t', ht', hfb, hpresents⟩ := keepsDisplay_of_not_display s hother
    cases ht'.symm.trans h
    exact ⟨hfb, hpresents⟩

end Sys2Proof.Machine

/-! PROOFS. Decoding the other way: a word that decodes is the word of its instruction, and the clauses `Encodes` as
equations between words (R71, R72, R84). -/

namespace Sys2Proof.Machine

/-! ## A word is made of its fields (R71, R72) -/

/-- A word is the one of format `NNN` with its own `nnn` exactly when its top field is the format's. -/
theorem wordNnn_fields_eq_iff {w : Word} {p : Nat} (hp : p < 16) :
    wordNnn p (fieldNnn w) = w ↔ fieldMajor w = p := by
  rw [← BitVec.toNat_inj, wordNnn_toNat _ _ hp, fieldNnn_toNat, fieldMajor_eq]
  omega

/-- A word is the one of format `XKK` with its own `x` and `kk` exactly when its top field is the format's. -/
theorem wordXkk_fields_eq_iff {w : Word} {p : Nat} (hp : p < 16) :
    wordXkk p (fieldX w) (fieldKk w) = w ↔ fieldMajor w = p := by
  rw [← BitVec.toNat_inj, wordXkk_toNat _ _ _ hp, fieldX_val, fieldKk_toNat, fieldMajor_eq]
  omega

/-- A word is the one of format `XY` with its own `x` and `y` exactly when its top and lowest fields are the format's. -/
theorem wordXyn_fields_eq_iff {w : Word} {p n : Nat} (hp : p < 16) (hn : n < 16) :
    wordXyn p (fieldX w) (fieldY w) n = w ↔ fieldMajor w = p ∧ fieldN w = n := by
  rw [← BitVec.toNat_inj, wordXyn_toNat _ _ _ _ hp hn, fieldX_val, fieldY_val, fieldN_eq, fieldMajor_eq]
  omega

theorem fieldN_lt (w : Word) : fieldN w < 16 := by
  rw [fieldN_eq]
  omega

/-! ## A word that decodes is the word of its instruction -/

theorem encode_of_decodeAlu {x y : Reg} {n : Nat} {i : Instr} (h : decodeAlu x y n = some i) :
    encode i = wordXyn 0x8 x y n := by
  unfold decodeAlu at h
  split at h <;> cases h <;> rfl

theorem encode_of_decodeKeySkip {x : Reg} {kk : Nat} {i : Instr} (h : decodeKeySkip x kk = some i) :
    encode i = wordXkk 0xE x (BitVec.ofNat 8 kk) := by
  unfold decodeKeySkip at h
  split at h <;> cases h <;> rfl

theorem encode_of_decodeMisc {x : Reg} {kk : Nat} {i : Instr} (h : decodeMisc x kk = some i) :
    encode i = wordXkk 0xF x (BitVec.ofNat 8 kk) := by
  unfold decodeMisc at h
  split at h <;> cases h <;> rfl

/-- The split is on the top field, in the order of `decodeWord`; in each case the fields that were read make the word. -/
theorem encode_of_decodeWord {w : Word} {i : Instr} (h : decodeWord w = some i) : encode i = w := by
  unfold decodeWord at h
  split at h
  case h_1 =>
    split at h
    next hw => cases h; exact hw.symm
    next =>
      split at h
      next hw => cases h; exact hw.symm
      next => cases h
  case h_2 hmajor | h_3 hmajor | h_11 hmajor | h_12 hmajor =>
    cases h
    exact (wordNnn_fields_eq_iff (by decide)).2 hmajor
  case h_4 hmajor | h_5 hmajor | h_7 hmajor | h_8 hmajor | h_13 hmajor =>
    cases h
    exact (wordXkk_fields_eq_iff (by decide)).2 hmajor
  case h_6 hmajor | h_10 hmajor =>
    split at h
    next hn => cases h; exact (wordXyn_fields_eq_iff (by decide) (by decide)).2 ⟨hmajor, hn⟩
    next => cases h
  case h_14 hmajor =>
    cases h
    exact (wordXyn_fields_eq_iff (by decide) (fieldN_lt w)).2 ⟨hmajor, rfl⟩
  case h_9 hmajor =>
    rw [encode_of_decodeAlu h]
    exact (wordXyn_fields_eq_iff (by decide) (fieldN_lt w)).2 ⟨hmajor, rfl⟩
  case h_15 hmajor =>
    rw [encode_of_decodeKeySkip h, BitVec.ofNat_toNat, BitVec.setWidth_eq]
    exact (wordXkk_fields_eq_iff (by decide)).2 hmajor
  case h_16 hmajor =>
    rw [encode_of_decodeMisc h, BitVec.ofNat_toNat, BitVec.setWidth_eq]
    exact (wordXkk_fields_eq_iff (by decide)).2 hmajor
  case h_17 => cases h

/-- No two words decode to one instruction: once a word is known to decode to it, every word that does is that word. -/
theorem decodeWord_eq_some_iff {i : Instr} {w w' : Word} (h : decodeWord w' = some i) :
    decodeWord w = some i ↔ w = w' :=
  ⟨fun hw => (encode_of_decodeWord hw).symm.trans (encode_of_decodeWord h), fun hw => hw ▸ h⟩

/-! ## The clauses `Encodes`, by format -/

/-- The rows of format `NNN`, under the mask 0xF000. -/
theorem encodes_of_wordNnn {p : Nat} {pattern : Word} {build : BitVec 12 → Instr} (hp : p < 16)
    (hpattern : pattern.toNat = p * 4096) (hround : ∀ nnn, decodeWord (wordNnn p nnn) = some (build nnn)) :
    Encodes pattern 0xF000 (fun w => build (fieldNnn w)) := by
  intro w
  rw [decodeWord_eq_some_iff (hround _), eq_comm (a := w), wordNnn_fields_eq_iff hp, eq_of_maskF000, hpattern]
  omega

/-- The rows of format `XKK`, under the mask 0xF000. -/
theorem encodes_of_wordXkk {p : Nat} {pattern : Word} {build : Reg → Byte → Instr} (hp : p < 16)
    (hpattern : pattern.toNat = p * 4096) (hround : ∀ x kk, decodeWord (wordXkk p x kk) = some (build x kk)) :
    Encodes pattern 0xF000 (fun w => build (fieldX w) (fieldKk w)) := by
  intro w
  rw [decodeWord_eq_some_iff (hround _ _), eq_comm (a := w), wordXkk_fields_eq_iff hp, eq_of_maskF000, hpattern]
  omega

/-- The rows of format `XY`, under the mask 0xF00F. -/
theorem encodes_of_wordXyn {p n : Nat} {pattern : Word} {build : Reg → Reg → Instr} (hp : p < 16) (hn : n < 16)
    (hpattern : pattern.toNat = p * 4096 + n) (hround : ∀ x y, decodeWord (wordXyn p x y n) = some (build x y)) :
    Encodes pattern 0xF00F (fun w => build (fieldX w) (fieldY w)) := by
  intro w
  have := fieldN_lt w
  rw [decodeWord_eq_some_iff (hround _ _), eq_comm (a := w), wordXyn_fields_eq_iff hp hn, eq_of_maskF00F, hpattern]
  omega

end Sys2Proof.Machine

/-! PROOFS. Control transfer: the jump (R144), the call and the return with the stack (R143, R145, R147), and the register
skips (R150 to R153). -/

namespace Sys2Proof.Machine

/-! ## Frames -/

/-- A change of `PC` changes no other part of the state. -/
theorem sameExcept_pc (s : State) (a : Word) : SameExcept [.pc] s { s with pc := a } :=
  ⟨.inr (State.reg_congr rfl), .inr rfl, .inl (by decide), .inr ⟨rfl, rfl⟩, .inr rfl, .inr rfl, .inr rfl, .inr rfl,
    .inr (State.readByte_congr rfl rfl), .inr rfl, rfl, rfl, rfl, rfl, rfl⟩

/-- A change of the stack and of `PC` changes no other part of the state. -/
theorem sameExcept_stack_pc (s : State) (stack : Vector Word 16) (sp : Fin 17) (a : Word) :
    SameExcept [.stack, .pc] s { s with stack := stack, sp := sp, pc := a } :=
  ⟨.inr (State.reg_congr rfl), .inr rfl, .inl (by decide), .inl (by decide), .inr rfl, .inr rfl, .inr rfl, .inr rfl,
    .inr (State.readByte_congr rfl rfl), .inr rfl, rfl, rfl, rfl, rfl, rfl⟩

/-! ## Jump (R144) -/

/-- Settles O20: `PC` takes `nnn` extended with zeros, which has the same value. -/
theorem jpSetsPcToNnn : Obligations.JpSetsPcToNnn :=
  ⟨encodes_of_wordNnn (p := 0x1) (by decide) rfl fun nnn => Laws.RoundTrip.jp nnn rfl,
    fun nnn s => ⟨{ s with pc := zextNnn nnn }, rfl, zextNnn_toNat nnn, sameExcept_pc s _⟩⟩

/-! ## Call and return (R143, R145, R147) -/

/-- Settles O22: with room, the slot at the old depth is the one the push writes; with none, the call raises. -/
theorem callPushesTheReturnAddress : Obligations.CallPushesTheReturnAddress := by
  refine ⟨encodes_of_wordNnn (p := 0x2) (by decide) rfl fun nnn => Laws.RoundTrip.call nnn rfl,
    fun nnn s => ⟨fun hroom => ?_, fun hfull => exec_call_full nnn hfull⟩⟩
  refine ⟨_, exec_call_room nnn hroom, rfl, fun k => ?_, zextNnn_toNat nnn, sameExcept_stack_pc s _ _ _⟩
  rw [Vector.getElem_set]
  simp only [eq_comm]

/-- Settles O23: a return with an entry held reads the slot below the depth and writes none; with none it raises. -/
theorem retPopsTheReturnAddress : Obligations.RetPopsTheReturnAddress := by
  refine ⟨fun w => (decodeWord_eq_some_iff (Laws.RoundTrip.ret rfl)).symm,
    fun s => ⟨fun hheld => ?_, fun hempty => exec_ret_empty hempty⟩⟩
  refine ⟨_, exec_ret_held hheld, Nat.sub_add_cancel hheld, fun k hk => ?_, fun _ _ => rfl,
    sameExcept_stack_pc s _ _ _⟩
  simp only [← hk, Nat.add_sub_cancel]

/-! ## The register skips (R106, R150 to R153) -/

/-- A skip goes 4 further when its condition holds, else 2, and changes nothing but `PC`. -/
theorem State.skipIf_advance_eq (s : State) {c : Bool} {p : Prop} [Decidable p] (h : c = true ↔ p) :
    s.advance.skipIf c = { s with pc := if p then s.pc + 4 else s.pc + 2 } := by
  have hfour : s.pc + 2 + 2 = s.pc + 4 := by rw [BitVec.add_assoc]; rfl
  simp only [State.skipIf, State.advance, h, hfour]

/-- A skip on inequality goes 2 further when the operands are equal, else 4. -/
theorem State.skipIf_bne_advance_eq (s : State) (a b : Byte) :
    s.advance.skipIf (a != b) = { s with pc := if a = b then s.pc + 2 else s.pc + 4 } := by
  rw [s.skipIf_advance_eq bne_iff_ne, ite_not]

/-- Settles O25: the words by their formats, the effects by the rule for a skip with its condition. -/
theorem registerSkipsTestTheirCondition : Obligations.RegisterSkipsTestTheirCondition := by
  refine ⟨encodes_of_wordXkk (p := 0x3) (by decide) rfl fun x kk => Laws.RoundTrip.seByte x kk rfl,
    encodes_of_wordXkk (p := 0x4) (by decide) rfl fun x kk => Laws.RoundTrip.sneByte x kk rfl,
    encodes_of_wordXyn (p := 0x5) (n := 0) (by decide) (by decide) rfl fun x y => Laws.RoundTrip.seReg x y rfl,
    encodes_of_wordXyn (p := 0x9) (n := 0) (by decide) (by decide) rfl fun x y => Laws.RoundTrip.sneReg x y rfl,
    fun x y kk s => ⟨?_, ?_, ?_, ?_⟩⟩
  · exact congrArg Host.Outcome.next (s.skipIf_advance_eq beq_iff_eq)
  · exact congrArg Host.Outcome.next (s.skipIf_bne_advance_eq _ _)
  · exact congrArg Host.Outcome.next (s.skipIf_advance_eq beq_iff_eq)
  · exact congrArg Host.Outcome.next (s.skipIf_bne_advance_eq _ _)

end Sys2Proof.Machine

/-! PROOFS. Loads and ALU: the byte load and add (R174, R175), addition and subtraction with the carry or NOT borrow
(R180, R181, R183), and the shifts with the lost bit (R182, R184). -/

namespace Sys2Proof.Machine

/-! ## Instructions that write registers (R104, R172) -/

/-- A change of the registers and of `PC` changes no other part of the state. -/
theorem sameExcept_regs_pc (s : State) (v : Vector Byte 16) (a : Word) :
    SameExcept [.regs, .pc] s { s with v := v, pc := a } :=
  ⟨.inl (by decide), .inr rfl, .inl (by decide), .inr ⟨rfl, rfl⟩, .inr rfl, .inr rfl, .inr rfl, .inr rfl,
    .inr (State.readByte_congr rfl rfl), .inr rfl, rfl, rfl, rfl, rfl, rfl⟩

/-- An instruction that advances and writes one register leaves that value there and every other register alone. -/
theorem setsRegisters_of_setReg {i : Instr} {s : State} {x : Reg} {b b' : Byte}
    (h : exec i s = .next (s.advance.setReg x b)) (hb : b = b') :
    SetsRegisters i s (fun r => if r = x then b' else s.reg r) :=
  ⟨_, h, fun r => by rw [State.reg_setReg, State.reg_advance, hb], rfl, sameExcept_regs_pc s _ _⟩

/-- An instruction that advances and writes a result and then its flag leaves the flag in `VF`, also where the result
went to `VF` (R172). -/
theorem setsRegisters_of_setRegFlag {i : Instr} {s : State} {x : Reg} {b b' f f' : Byte}
    (h : exec i s = .next (s.advance.setRegFlag x b f)) (hb : b = b') (hf : f = f') :
    SetsRegisters i s (fun r => if r = VF then f' else if r = x then b' else s.reg r) :=
  ⟨_, h, fun r => by rw [State.reg_setRegFlag, State.reg_advance, hb, hf], rfl, sameExcept_regs_pc s _ _⟩

/-! ## Results modulo 256 (R170) -/

theorem truncByte_eq_ofNat_mod (n : Nat) : truncByte n = BitVec.ofNat 8 (n % 256) :=
  BitVec.eq_of_toNat_eq (by rw [truncByte_toNat, BitVec.toNat_ofNat, Nat.mod_mod])

theorem byte_sub_eq_ofNat_mod (a b : Byte) : a - b = BitVec.ofNat 8 ((a.toNat + 256 - b.toNat) % 256) := by
  apply BitVec.eq_of_toNat_eq
  have := b.isLt
  rw [BitVec.toNat_sub, BitVec.toNat_ofNat]
  omega

theorem byte_shiftRight_one_eq (a : Byte) : a >>> 1 = BitVec.ofNat 8 (a.toNat / 2) := by
  apply BitVec.eq_of_toNat_eq
  have := a.isLt
  rw [BitVec.toNat_ushiftRight, Nat.shiftRight_eq_div_pow, BitVec.toNat_ofNat]
  omega

theorem byte_shiftLeft_one_eq (a : Byte) : a <<< 1 = BitVec.ofNat 8 (a.toNat * 2 % 256) := by
  apply BitVec.eq_of_toNat_eq
  rw [BitVec.toNat_shiftLeft, Nat.shiftLeft_eq, BitVec.toNat_ofNat]
  omega

/-! ## Carry and NOT borrow (R180, R181, R183) -/

theorem flagOf_decide (p : Prop) [Decidable p] : flagOf (decide p) = if p then 1 else 0 := by
  simp only [flagOf, decide_eq_true_eq]

/-! ## The instructions -/

/-- Settles O27: both write one register and no flag; the sum is truncated. -/
theorem byteLoadAndAddWriteVx : Obligations.ByteLoadAndAddWriteVx :=
  ⟨encodes_of_wordXkk (p := 0x6) (by decide) rfl fun x kk => Laws.RoundTrip.ldByte x kk rfl,
    encodes_of_wordXkk (p := 0x7) (by decide) rfl fun x kk => Laws.RoundTrip.addByte x kk rfl,
    fun _ _ _ => ⟨setsRegisters_of_setReg rfl rfl, setsRegisters_of_setReg rfl (truncByte_eq_ofNat_mod _)⟩⟩

/-- Settles O29: result and flag are computed from the operands of the state before, and the flag is written last. -/
theorem addAndSubtractSetVfLast : Obligations.AddAndSubtractSetVfLast := by
  refine ⟨encodes_of_wordXyn (p := 0x8) (n := 4) (by decide) (by decide) rfl fun x y => Laws.RoundTrip.addReg x y rfl,
    encodes_of_wordXyn (p := 0x8) (n := 5) (by decide) (by decide) rfl fun x y => Laws.RoundTrip.subReg x y rfl,
    encodes_of_wordXyn (p := 0x8) (n := 7) (by decide) (by decide) rfl fun x y => Laws.RoundTrip.subnReg x y rfl,
    fun x y s => ⟨?_, ?_, ?_⟩⟩
  · exact setsRegisters_of_setRegFlag rfl (truncByte_eq_ofNat_mod _) (flagOf_decide _)
  · exact setsRegisters_of_setRegFlag rfl (byte_sub_eq_ofNat_mod _ _) (flagOf_decide _)
  · exact setsRegisters_of_setRegFlag rfl (byte_sub_eq_ofNat_mod _ _) (flagOf_decide _)

/-- Settles O30: the result and the lost bit come from the old `V[x]` alone, and the flag is written last. -/
theorem shiftsSetVfToTheLostBit : Obligations.ShiftsSetVfToTheLostBit := by
  refine ⟨encodes_of_wordXyn (p := 0x8) (n := 6) (by decide) (by decide) rfl fun x y => Laws.RoundTrip.shr x y rfl,
    encodes_of_wordXyn (p := 0x8) (n := 0xE) (by decide) (by decide) rfl fun x y => Laws.RoundTrip.shl x y rfl,
    fun x y s => ⟨?_, ?_⟩⟩
  · exact setsRegisters_of_setRegFlag rfl (byte_shiftRight_one_eq _) (lowBitFlag_eq _)
  · exact setsRegisters_of_setRegFlag rfl (byte_shiftLeft_one_eq _) (highBitFlag_eq _)

end Sys2Proof.Machine

/-! PROOFS. Index register and memory: the loads of `I` (R201, R203), and the store of the three decimal digits
(R204). -/

namespace Sys2Proof.Machine

/-! ## Words with a selector in the low byte (R72, R82) -/

/-- The rows of format `X`, whose `kk` is fixed, under the mask 0xF0FF. -/
theorem encodes_of_wordXkk_fixed {p : Nat} {kk : Byte} {pattern : Word} {build : Reg → Instr} (hp : p < 16)
    (hpattern : pattern.toNat = p * 4096 + kk.toNat) (hround : ∀ x, decodeWord (wordXkk p x kk) = some (build x)) :
    Encodes pattern 0xF0FF (fun w => build (fieldX w)) := by
  intro w
  have hfields : w = wordXkk p (fieldX w) kk ↔ fieldMajor w = p ∧ (fieldKk w).toNat = kk.toNat := by
    rw [← BitVec.toNat_inj, wordXkk_toNat _ _ _ hp, fieldX_val, fieldKk_toNat, fieldMajor_eq]
    omega
  rw [decodeWord_eq_some_iff (hround _), hfields, eq_of_maskF0FF, hpattern]
  omega

/-! ## Frames -/

/-- A change of `I` and of `PC` changes no other part of the state. -/
theorem sameExcept_index_pc (s : State) (i a : Word) : SameExcept [.index, .pc] s { s with i := i, pc := a } :=
  ⟨.inr (State.reg_congr rfl), .inl (by decide), .inl (by decide), .inr ⟨rfl, rfl⟩, .inr rfl, .inr rfl, .inr rfl,
    .inr rfl, .inr (State.readByte_congr rfl rfl), .inr rfl, rfl, rfl, rfl, rfl, rfl⟩

/-- A change of memory and of `PC` changes no other part of the state. -/
theorem sameExcept_memory_pc (s : State) (mem : Memory) (a : Word) :
    SameExcept [.memory, .pc] s { s with mem := mem, pc := a } :=
  ⟨.inr (State.reg_congr rfl), .inr rfl, .inl (by decide), .inr ⟨rfl, rfl⟩, .inr rfl, .inr rfl, .inr rfl, .inr rfl,
    .inl (by decide), .inr rfl, rfl, rfl, rfl, rfl, rfl⟩

/-! ## The loads of `I` (R201, R203) -/

/-- Settles O33: both operands are extended with zeros, and five times a byte fits a word, so nothing wraps. -/
theorem indexLoadsSetI : Obligations.IndexLoadsSetI :=
  ⟨encodes_of_wordNnn (p := 0xA) (by decide) rfl fun nnn => Laws.RoundTrip.ldI nnn rfl,
    encodes_of_wordXkk_fixed (p := 0xF) (kk := 0x29) (by decide) rfl fun x => Laws.RoundTrip.ldFont x rfl,
    fun nnn x s => ⟨⟨_, rfl, zextNnn_toNat nnn, rfl, sameExcept_index_pc s _ _⟩,
      ⟨_, rfl, glyphAddress_toNat (s.reg x), rfl, sameExcept_index_pc s _ _⟩⟩⟩

/-! ## The decimal digits (R204) -/

/-- The digits that `Fx33` leaves: each is below 256, so its truncation to a byte keeps it. -/
theorem State.toNat_byteAfterBcd (s : State) (x : Reg) :
    (s.byteAfterBcd x s.i.toNat).toNat = (s.reg x).toNat / 100 ∧
    (s.byteAfterBcd x (s.i.toNat + 1)).toNat = (s.reg x).toNat / 10 % 10 ∧
    (s.byteAfterBcd x (s.i.toNat + 2)).toNat = (s.reg x).toNat % 10 := by
  have := (s.reg x).isLt
  refine ⟨?_, ?_, ?_⟩
  · rw [State.byteAfterBcd, if_pos rfl, BitVec.toNat_ofNat]
    omega
  · rw [State.byteAfterBcd, if_neg (by omega), if_pos rfl, BitVec.toNat_ofNat]
    omega
  · rw [State.byteAfterBcd, if_neg (by omega), if_neg (by omega), if_pos rfl, BitVec.toNat_ofNat]
    omega

/-- Settles O35: a range in memory takes the digits and keeps every byte outside it; any other range raises before the
store. -/
theorem bcdStoresThreeDigits : Obligations.BcdStoresThreeDigits := by
  refine ⟨encodes_of_wordXkk_fixed (p := 0xF) (kk := 0x33) (by decide) rfl fun x => Laws.RoundTrip.ldBcd x rfl,
    fun x s => ⟨fun hwf hle => ?_, fun hgt => ⟨_, exec_ldBcd_outside x (by omega)⟩⟩⟩
  have hfit : s.i.toNat + 3 ≤ 0x1000 := by omega
  have hread (a : Nat) : (s.advance.storeBytes s.i.toNat (bcdDigits (s.reg x))).readByte a = s.byteAfterBcd x a :=
    s.readByte_storeDigits x a hwf hfit
  obtain ⟨hhundreds, htens, hones⟩ := s.toNat_byteAfterBcd x
  refine ⟨_, exec_ldBcd_fits x hfit, ?_, ?_, ?_, fun a ha => s.advance.readByte_storeBytes_outside ha, rfl,
    sameExcept_memory_pc s _ _⟩
  · rw [hread, hhundreds]
  · rw [hread, htens]
  · rw [hread, hones]

end Sys2Proof.Machine

/-! PROOFS. Keys and timers: `Fx0A` enters the wait for a key (R223). -/

namespace Sys2Proof.Machine

/-! ## The wait for a key (R223) -/

/-- A change of the run state and of `PC` changes no other part of the state. -/
theorem sameExcept_run_pc (s : State) (rs : RunState) (a : Word) :
    SameExcept [.run, .pc] s { s with rs := rs, pc := a } :=
  ⟨.inr (State.reg_congr rfl), .inr rfl, .inl (by decide), .inr ⟨rfl, rfl⟩, .inr rfl, .inr rfl, .inr rfl,
    .inl (by decide), .inr (State.readByte_congr rfl rfl), .inr rfl, rfl, rfl, rfl, rfl, rfl⟩

/-- Settles O42: the word by its format, and the wait is entered without a guard after `PC` has advanced. -/
theorem waitForKeyEntersTheWait : Obligations.WaitForKeyEntersTheWait :=
  ⟨encodes_of_wordXkk_fixed (p := 0xF) (kk := 0x0A) (by decide) rfl fun x => Laws.RoundTrip.ldVxKey x rfl,
    fun x s => ⟨{ s with rs := .awaitingKey x, pc := s.pc + 2 }, rfl, rfl, rfl, sameExcept_run_pc s _ _⟩⟩

end Sys2Proof.Machine

/-! PROOFS. The timer tick: `tick_timers` lowers both timers and touches nothing else (R250). -/

namespace Sys2Proof.Machine

/-! ## The timer tick (R250) -/

/-- A change of the two timers changes no other part of the state. -/
theorem sameExcept_timers (s : State) (dt st : Byte) : SameExcept [.delay, .sound] s { s with dt := dt, st := st } :=
  ⟨.inr (State.reg_congr rfl), .inr rfl, .inr rfl, .inr ⟨rfl, rfl⟩, .inl (by decide), .inl (by decide), .inr rfl,
    .inr rfl, .inr (State.readByte_congr rfl rfl), .inr rfl, rfl, rfl, rfl, rfl, rfl⟩

/-- Settles O46: a live state has both timers decremented, which saturates at 0, and a faulted one is left alone. -/
theorem tickLowersEachTimerByOne : Obligations.TickLowersEachTimerByOne := by
  refine fun s => ⟨s.tickTimers, rfl, fun hlive => ?_, fun report hfaulted => State.tickTimers_faulted hfaulted⟩
  rw [State.tickTimers_live hlive]
  exact ⟨decrement_toNat s.dt, decrement_toNat s.st, sameExcept_timers s _ _⟩

end Sys2Proof.Machine

/-! PROOFS. Reset: the image stands from 0x200 on in the order of its bytes, and the first fetch reads its first two
(R271). -/

namespace Sys2Proof.Machine

/-! ## The image in memory (R271) -/

/-- Byte `k` of an image that fits, written into empty memory from 0x200 on, is read at 0x200 + `k`. -/
theorem Memory.read_image (font : Font) {rom : List Byte} (hfit : rom.length ≤ 3584) {k : Nat} (hk : k < rom.length) :
    Memory.read font (Memory.writeBytes font [] 0x200 rom) (0x200 + k) = rom[k] :=
  Memory.read_writeBytes_inside Memory.wf_nil (by omega) hk

/-- A fetch at 0x200 reads the two bytes there, the first one high. -/
theorem State.fetch_at_programBase {s : State} (hpc : s.pc = 0x200) :
    s.fetch = .ok (wordOfBytes (s.readByte 0x200) (s.readByte 0x201)) := by
  have hbase : s.pc.toNat = 0x200 := by rw [hpc]; rfl
  rw [State.fetch_ok (by omega) (by omega), hbase]

/-- Settles O50: an image that fits is read back byte by byte, so the first fetch reads its first two bytes. -/
theorem resetPlacesTheImageAt0x200 : Obligations.ResetPlacesTheImageAt0x200 := by
  intro s rom hfit
  refine ⟨_, State.resetWith_fits hfit, rfl, fun k hk => Memory.read_image s.font hfit hk,
    fun hlen => ⟨_, State.fetch_at_programBase rfl, ?_⟩⟩
  have hfirst := Memory.read_image s.font hfit (k := 0) (by omega)
  have hsecond := Memory.read_image s.font hfit (k := 1) hlen
  rw [wordOfBytes_toNat, ← hfirst, ← hsecond]
  rfl

end Sys2Proof.Machine

/-! PROOFS. The round trips of the decoder and the encoder (R71 to R82), and the opcode table as what decodes (R84). -/

namespace Sys2Proof.Machine

/-! ## Encoding, then decoding -/

/-- The per-instruction round trips, gathered. -/
theorem decodeWord_encode {i : Instr} (h : i.wellFormed = true) : decodeWord (encode i) = some i := by
  cases i with
  | cls => exact Laws.RoundTrip.cls h
  | ret => exact Laws.RoundTrip.ret h
  | jp nnn => exact Laws.RoundTrip.jp nnn h
  | call nnn => exact Laws.RoundTrip.call nnn h
  | seByte x kk => exact Laws.RoundTrip.seByte x kk h
  | sneByte x kk => exact Laws.RoundTrip.sneByte x kk h
  | seReg x y => exact Laws.RoundTrip.seReg x y h
  | ldByte x kk => exact Laws.RoundTrip.ldByte x kk h
  | addByte x kk => exact Laws.RoundTrip.addByte x kk h
  | ldReg x y => exact Laws.RoundTrip.ldReg x y h
  | orReg x y => exact Laws.RoundTrip.orReg x y h
  | andReg x y => exact Laws.RoundTrip.andReg x y h
  | xorReg x y => exact Laws.RoundTrip.xorReg x y h
  | addReg x y => exact Laws.RoundTrip.addReg x y h
  | subReg x y => exact Laws.RoundTrip.subReg x y h
  | shr x y => exact Laws.RoundTrip.shr x y h
  | subnReg x y => exact Laws.RoundTrip.subnReg x y h
  | shl x y => exact Laws.RoundTrip.shl x y h
  | sneReg x y => exact Laws.RoundTrip.sneReg x y h
  | ldI nnn => exact Laws.RoundTrip.ldI nnn h
  | jpV0 nnn => exact Laws.RoundTrip.jpV0 nnn h
  | rnd x kk => exact Laws.RoundTrip.rnd x kk h
  | drw x y n => exact Laws.RoundTrip.drw x y n h
  | skp x => exact Laws.RoundTrip.skp x h
  | sknp x => exact Laws.RoundTrip.sknp x h
  | ldVxDt x => exact Laws.RoundTrip.ldVxDt x h
  | ldVxKey x => exact Laws.RoundTrip.ldVxKey x h
  | ldDtVx x => exact Laws.RoundTrip.ldDtVx x h
  | ldStVx x => exact Laws.RoundTrip.ldStVx x h
  | addI x => exact Laws.RoundTrip.addI x h
  | ldFont x => exact Laws.RoundTrip.ldFont x h
  | ldBcd x => exact Laws.RoundTrip.ldBcd x h
  | storeRegs x => exact Laws.RoundTrip.storeRegs x h
  | loadRegs x => exact Laws.RoundTrip.loadRegs x h

/-- The two bytes of an instruction are decoded as its word is, whatever bytes follow. -/
theorem decode_encodeBytes_append {i : Instr} (rest : List Byte) (h : decodeWord (encode i) = some i) :
    decode (encodeBytes i ++ rest) = .ok (i, rest) := by
  simp only [encodeBytes, List.cons_append, List.nil_append, decode, wordOfBytes_bytes, h]

/-- Settles O2: the word by the round trip of its instruction, the bytes because they make the word again. -/
theorem encodeThenDecodeGivesTheInstruction : Obligations.EncodeThenDecodeGivesTheInstruction :=
  fun _ rest h => ⟨decodeWord_encode h, decode_encodeBytes_append rest (decodeWord_encode h)⟩

/-! ## Decoding, then encoding -/

theorem wellFormed_of_decodeAlu {x y : Reg} {n : Nat} {i : Instr} (h : decodeAlu x y n = some i) :
    i.wellFormed = true := by
  unfold decodeAlu at h
  split at h <;> cases h <;> rfl

theorem wellFormed_of_decodeKeySkip {x : Reg} {kk : Nat} {i : Instr} (h : decodeKeySkip x kk = some i) :
    i.wellFormed = true := by
  unfold decodeKeySkip at h
  split at h <;> cases h <;> rfl

theorem wellFormed_of_decodeMisc {x : Reg} {kk : Nat} {i : Instr} (h : decodeMisc x kk = some i) :
    i.wellFormed = true := by
  unfold decodeMisc at h
  split at h <;> cases h <;> rfl

/-- Only a sprite height can be out of its field (R73), and the decoder reads it from four bits. The split is on the top
field, in the order of `decodeWord`. -/
theorem wellFormed_of_decodeWord {w : Word} {i : Instr} (h : decodeWord w = some i) : i.wellFormed = true := by
  unfold decodeWord at h
  split at h
  case h_1 =>
    split at h
    next => cases h; rfl
    next => split at h <;> cases h; rfl
  case h_6 | h_10 => split at h <;> cases h; rfl
  case h_9 => exact wellFormed_of_decodeAlu h
  case h_14 => cases h; exact decide_eq_true (fieldN_lt w)
  case h_15 => exact wellFormed_of_decodeKeySkip h
  case h_16 => exact wellFormed_of_decodeMisc h
  -- Under each of the other top fields there is one instruction with no height, or none.
  all_goals cases h <;> rfl

/-- Settles O3: the fields that the decoder read make the word again. -/
theorem decodeThenEncodeGivesTheWord : Obligations.DecodeThenEncodeGivesTheWord :=
  fun _ _ h => ⟨wellFormed_of_decodeWord h, encode_of_decodeWord h⟩

/-! ## The opcode table (R84) -/

/-- A list in which no two members meet a predicate together has at most one that meets it. -/
theorem length_filter_le_one {α : Type} {p : α → Bool} {l : List α}
    (h : l.Pairwise fun a b => ¬ (p a = true ∧ p b = true)) : (l.filter p).length ≤ 1 := by
  induction l with
  | nil => exact Nat.zero_le 1
  | cons a l ih =>
    obtain ⟨ha, hl⟩ := List.pairwise_cons.1 h
    by_cases hp : p a = true
    · have hrest : l.filter p = [] := List.filter_eq_nil_iff.2 fun b hb hpb => ha b hb ⟨hp, hpb⟩
      rw [List.filter_cons_of_pos hp, hrest]
      exact Nat.le_refl 1
    · rw [List.filter_cons_of_neg hp]
      exact ih hl

/-- A word of two rows has the same bits under both masks, whichever row's pattern they are read from. -/
theorem pattern_and_mask_of_covers {r q : OpcodeRow} {w : Word} (hr : r.covers w = true) (hq : q.covers w = true) :
    r.pattern &&& q.mask = q.pattern &&& r.mask := by
  rw [← beq_iff_eq.1 hr, ← beq_iff_eq.1 hq, BitVec.and_assoc, BitVec.and_assoc, BitVec.and_comm r.mask]

/-- Any two rows of the table differ in a bit that both of them fix. -/
theorem opcodeTable_patterns_differ :
    opcodeTable.Pairwise fun r q => r.pattern &&& q.mask ≠ q.pattern &&& r.mask := by
  decide

/-- A selector under the top field 8 without an instruction is none of the nine of R80. -/
theorem not_mem_of_decodeAlu_eq_none {x y : Reg} {n : Nat} (h : decodeAlu x y n = none) :
    n ∉ [0x0, 0x1, 0x2, 0x3, 0x4, 0x5, 0x6, 0x7, 0xE] := by
  unfold decodeAlu at h
  split at h
  case h_10 =>
    simp only [List.mem_cons, List.not_mem_nil, or_false]
    tauto
  all_goals cases h

/-- A selector under the top field E without an instruction is neither of R81. -/
theorem not_mem_of_decodeKeySkip_eq_none {x : Reg} {kk : Nat} (h : decodeKeySkip x kk = none) :
    kk ∉ [0x9E, 0xA1] := by
  unfold decodeKeySkip at h
  split at h
  case h_3 =>
    simp only [List.mem_cons, List.not_mem_nil, or_false]
    tauto
  all_goals cases h

/-- A selector under the top field F without an instruction is none of the nine of R82. -/
theorem not_mem_of_decodeMisc_eq_none {x : Reg} {kk : Nat} (h : decodeMisc x kk = none) :
    kk ∉ [0x07, 0x0A, 0x15, 0x18, 0x1E, 0x29, 0x33, 0x55, 0x65] := by
  unfold decodeMisc at h
  split at h
  case h_10 =>
    simp only [List.mem_cons, List.not_mem_nil, or_false]
    tauto
  all_goals cases h

/-- A word that does not decode is of no row: where the decoder gives up, the fields are none of a row's. -/
theorem uncovered_of_decodeWord_eq_none {w : Word} (h : decodeWord w = none) :
    ∀ r ∈ opcodeTable, r.covers w = false := by
  simp only [Word, opcodeTable, opcodeRowsLow, opcodeRowsAlu, opcodeRowsHigh, List.cons_append, List.nil_append,
    List.forall_mem_cons, OpcodeRow.covers, beq_eq_false_iff_ne, ne_eq, and_maskFFFF,
    eq_of_maskF000, eq_of_maskF00F, eq_of_maskF0FF, BitVec.reduceToNat, List.not_mem_nil, false_implies, implies_true,
    and_true]
  refine ⟨?_, ?_, ?_⟩
  · rintro rfl
    cases (Laws.RoundTrip.cls rfl).symm.trans h
  · rintro rfl
    cases (Laws.RoundTrip.ret rfl).symm.trans h
  have hn := fieldN_lt w
  have hkk := (fieldKk w).isLt
  unfold decodeWord at h
  split at h
  case h_1 => omega
  case h_6 | h_10 =>
    split at h
    next => cases h
    next => omega
  case h_9 =>
    have := not_mem_of_decodeAlu_eq_none h
    simp only [List.mem_cons, List.not_mem_nil, or_false] at this
    omega
  case h_15 =>
    have := not_mem_of_decodeKeySkip_eq_none h
    simp only [List.mem_cons, List.not_mem_nil, or_false] at this
    omega
  case h_16 =>
    have := not_mem_of_decodeMisc_eq_none h
    simp only [List.mem_cons, List.not_mem_nil, or_false] at this
    omega
  case h_17 =>
    have := w.isLt
    have := fieldMajor_eq w
    simp only [imp_false] at *
    omega
  all_goals cases h

theorem decodeWord_eq_none_iff {w : Word} : decodeWord w = none ↔ ∀ r ∈ opcodeTable, r.covers w = false :=
  ⟨uncovered_of_decodeWord_eq_none, decodeWord_eq_none_of_uncovered⟩

/-- Settles O4: two rows differ in a bit that both fix, so no word is of both; and the words that do not decode are those
of no row. -/
theorem everyWordIsOfOneTableRowOrUnknown : Obligations.EveryWordIsOfOneTableRowOrUnknown := by
  refine ⟨fun w => length_filter_le_one ?_, fun w => ?_⟩
  · exact opcodeTable_patterns_differ.imp fun hne hboth => hne (pattern_and_mask_of_covers hboth.1 hboth.2)
  · rw [← Option.ne_none_iff_isSome, ne_eq, decodeWord_eq_none_iff]
    push Not
    simp only [ne_eq, Bool.not_eq_false]

/-! ## Words of the spec -/

/-- Settles O1: the decoder evaluates on each of these words and bytes. -/
theorem specWordsDecodeToTheirInstructions : Obligations.SpecWordsDecodeToTheirInstructions := by
  unfold Obligations.SpecWordsDecodeToTheirInstructions
  decide

end Sys2Proof.Machine

/-! PROOFS. What an instruction can do, said once: it raises exactly under its fault condition, and elsewhere it completes
with the parts of the state that it may change (R104 to R107, R112, R246). -/

namespace Sys2Proof.Machine

/-! ## Raising (R243, R246) -/

/-- The column `info` of R243 for the instruction's own fault. -/
def faultInfo (s : State) (i : Instr) : Option Nat :=
  match i with
  | .skp x | .sknp x => some (s.reg x).toNat
  | _ => if 0 < accessCount i then some (max s.i.toNat 0x1000) else none

/-- Where bytes are accessed, the report's `info` is the lowest address of the access outside memory (R243). -/
theorem faultInfo_of_access {s : State} {i : Instr} (h : 0 < accessCount i) :
    faultInfo s i = some (max s.i.toNat 0x1000) := by
  cases i with
  | skp x | sknp x => cases h
  | _ => simp only [faultInfo, if_pos h]

/-- Where its fault condition holds, an instruction raises that fault. -/
theorem exec_of_faultCondition {s : State} {i : Instr} {k : FaultKind} (h : faultCondition s i k) :
    exec i s = s.raise k (some (encode i)) (faultInfo s i) := by
  cases i with
  | call nnn => obtain ⟨rfl, hfull⟩ := h; exact exec_call_full nnn hfull
  | ret => obtain ⟨rfl, hempty⟩ := h; exact exec_ret_empty hempty
  | drw x y n =>
    obtain ⟨rfl, hn, hout⟩ := h
    rw [exec_drw_outside x y hn hout, faultInfo_of_access (i := .drw x y n) hn]
  | ldBcd x => obtain ⟨rfl, hout⟩ := h; exact exec_ldBcd_outside x hout
  | storeRegs x => obtain ⟨rfl, hout⟩ := h; exact exec_storeRegs_outside x hout
  | loadRegs x => obtain ⟨rfl, hout⟩ := h; exact exec_loadRegs_outside x hout
  | skp x => obtain ⟨rfl, hkey⟩ := h; exact exec_skp_outside x hkey
  | sknp x => obtain ⟨rfl, hkey⟩ := h; exact exec_sknp_outside x hkey
  | _ => cases h

/-- An instruction has at most one kind of fault. -/
theorem faultCondition_unique {s : State} {i : Instr} {k k' : FaultKind} (h : faultCondition s i k)
    (h' : faultCondition s i k') : k = k' := by
  cases i with
  | call | ret | drw | ldBcd | storeRegs | loadRegs | skp | sknp => exact h.1.trans h'.1.symm
  | _ => cases h

/-- The condition for MemoryOutOfRange is the access past 0xFFF (R15, R55). -/
theorem faultCondition_memoryOutOfRange_iff {s : State} {i : Instr} :
    faultCondition s i .memoryOutOfRange ↔ 0 < accessCount i ∧ s.i.toNat + accessCount i > 0x1000 := by
  cases i <;> simp [faultCondition, accessCount, Nat.add_assoc]

/-! ## The instructions with a guard, where they do not raise -/

section
variable {s : State} {x y : Reg} {n : Nat} {nnn : BitVec 12}

theorem exec_drw_completes (h : ∀ k, ¬ faultCondition s (.drw x y n) k) :
    exec (.drw x y n) s =
      .next ({ s.advance with fb := (s.drawn x y n).fb }.setReg VF (flagOf (s.drawn x y n).hit)).present := by
  refine exec_drw_fits x y n ?_
  by_contra hout
  exact h .memoryOutOfRange ⟨rfl, by omega, by omega⟩

theorem exec_call_completes (h : ∀ k, ¬ faultCondition s (.call nnn) k) :
    ∃ hroom : s.sp.val < 16, exec (.call nnn) s = .next { s with
      pc := zextNnn nnn, stack := s.stack.set s.sp.val (s.pc + 2), sp := ⟨s.sp.val + 1, by omega⟩ } := by
  have hroom : s.sp.val < 16 := by
    by_contra hfull
    exact h .stackOverflow ⟨rfl, by omega⟩
  exact ⟨hroom, exec_call_room nnn hroom⟩

theorem exec_ret_completes (h : ∀ k, ¬ faultCondition s .ret k) :
    ∃ hheld : 0 < s.sp.val, exec .ret s = .next { s with
      pc := s.stack[s.sp.val - 1]'(by omega), sp := ⟨s.sp.val - 1, by omega⟩ } :=
  have hheld : 0 < s.sp.val := Nat.pos_of_ne_zero fun hempty => h .stackUnderflow ⟨rfl, hempty⟩
  ⟨hheld, exec_ret_held hheld⟩

theorem exec_ldBcd_completes (h : ∀ k, ¬ faultCondition s (.ldBcd x) k) :
    exec (.ldBcd x) s = .next (s.advance.storeBytes s.i.toNat (bcdDigits (s.reg x))) :=
  exec_ldBcd_fits x (Nat.le_of_not_gt fun hout => h .memoryOutOfRange ⟨rfl, hout⟩)

theorem exec_storeRegs_completes (h : ∀ k, ¬ faultCondition s (.storeRegs x) k) :
    exec (.storeRegs x) s = .next (s.advance.storeBytes s.i.toNat (s.regBlock x)) :=
  exec_storeRegs_fits x (Nat.le_of_not_gt fun hout => h .memoryOutOfRange ⟨rfl, hout⟩)

theorem exec_loadRegs_completes (h : ∀ k, ¬ faultCondition s (.loadRegs x) k) :
    exec (.loadRegs x) s = .next (s.advance.loadBlock s.i.toNat (x.val + 1)) :=
  exec_loadRegs_fits x (Nat.le_of_not_gt fun hout => h .memoryOutOfRange ⟨rfl, hout⟩)

theorem exec_skp_completes (h : ∀ k, ¬ faultCondition s (.skp x) k) :
    exec (.skp x) s = .next (s.advance.skipIf (s.keys.getLsbD (s.reg x).toNat)) :=
  exec_skp_key x (Nat.lt_of_not_le fun hout => h .keyIndexOutOfRange ⟨rfl, hout⟩)

theorem exec_sknp_completes (h : ∀ k, ¬ faultCondition s (.sknp x) k) :
    exec (.sknp x) s = .next (s.advance.skipIf (!s.keys.getLsbD (s.reg x).toNat)) :=
  exec_sknp_key x (Nat.lt_of_not_le fun hout => h .keyIndexOutOfRange ⟨rfl, hout⟩)

end

/-! ## Completing (R104, R112) -/

/-- The parts of the state that an instruction may change where it completes. -/
def changedParts : Instr → List Part
  | .cls => [.frame, .presents, .pc]
  | .drw _ _ _ => [.regs, .frame, .presents, .pc]
  | .ret | .call _ => [.stack, .pc]
  | .ldI _ | .addI _ | .ldFont _ => [.index, .pc]
  | .ldBcd _ | .storeRegs _ => [.memory, .pc]
  | .ldVxKey _ => [.run, .pc]
  | .ldDtVx _ => [.delay, .pc]
  | .ldStVx _ => [.sound, .pc]
  | .jp _ | .jpV0 _ | .seByte _ _ | .sneByte _ _ | .seReg _ _ | .sneReg _ _ | .skp _ | .sknp _ => [.pc]
  | _ => [.regs, .pc]

/-- What holds of the state in which an instruction completes. -/
structure Completes (i : Instr) (s t : State) : Prop where
  parts : SameExcept (changedParts i) s t
  pc : t.pc = pcAfter s i
  regs : ∀ r, mayWrite i r = false → t.reg r = s.reg r
  run : t.rs = s.rs ∨ ∃ x, i = .ldVxKey x ∧ t.rs = .awaitingKey x
  memory : ∀ a, a < s.i.toNat ∨ s.i.toNat + storeCount i ≤ a → t.readByte a = s.readByte a
  canonical : Memory.wf s.font s.mem → Memory.wf t.font t.mem

section
variable {i : Instr} {s t : State}

/-- An instruction that changes no register, no byte and not the run state. -/
theorem completes_of_same (hparts : SameExcept (changedParts i) s t) (hpc : t.pc = pcAfter s i) (hv : t.v = s.v)
    (hrs : t.rs = s.rs) (hfont : t.font = s.font) (hmem : t.mem = s.mem) : Completes i s t :=
  ⟨hparts, hpc, fun r _ => State.reg_congr hv r, .inl hrs, fun a _ => State.readByte_congr hfont hmem a,
    fun hwf => by rwa [hfont, hmem]⟩

/-- An instruction that changes `PC` only. -/
theorem completes_of_pc {a : Word} (hi : changedParts i = [.pc]) (ha : a = pcAfter s i) :
    Completes i s { s with pc := a } :=
  completes_of_same (hi ▸ sameExcept_pc s a) ha rfl rfl rfl rfl

/-- An instruction that changes registers and `PC` only. -/
theorem completes_of_regs {v : Vector Byte 16} (hi : changedParts i = [.regs, .pc]) (hpc : pcAfter s i = s.pcPlus 2)
    (hv : ∀ r, mayWrite i r = false → { s with v := v }.reg r = s.reg r) :
    Completes i s { s with v := v, pc := s.pc + 2 } :=
  ⟨hi ▸ sameExcept_regs_pc s v _, hpc ▸ s.pc_add_two, hv, .inl rfl, fun _ _ => rfl, id⟩

/-- An instruction that writes one register. -/
theorem completes_of_setReg {x : Reg} {b : Byte} (hi : changedParts i = [.regs, .pc])
    (hpc : pcAfter s i = s.pcPlus 2) (hx : mayWrite i x = true) : Completes i s (s.advance.setReg x b) := by
  refine completes_of_regs hi hpc fun r hr => ?_
  have hne : r ≠ x := by rintro rfl; simp [hx] at hr
  exact (s.reg_setReg x r b).trans (if_neg hne)

/-- An instruction that writes one register and the flag. -/
theorem completes_of_setRegFlag {x : Reg} {b f : Byte} (hi : changedParts i = [.regs, .pc])
    (hpc : pcAfter s i = s.pcPlus 2) (hx : mayWrite i x = true) (hF : mayWrite i VF = true) :
    Completes i s (s.advance.setRegFlag x b f) := by
  refine completes_of_regs hi hpc fun r hr => ?_
  have hne : r ≠ x := by rintro rfl; simp [hx] at hr
  have hneF : r ≠ VF := by rintro rfl; simp [hF] at hr
  exact (s.reg_setRegFlag x r b f).trans ((if_neg hneF).trans (if_neg hne))

/-- An instruction that stores bytes from `I` on. -/
theorem completes_of_storeBytes {bs : List Byte} (hi : changedParts i = [.memory, .pc])
    (hpc : pcAfter s i = s.pcPlus 2) (hlen : bs.length = storeCount i) :
    Completes i s (s.advance.storeBytes s.i.toNat bs) :=
  ⟨hi ▸ sameExcept_memory_pc s _ _, hpc ▸ s.pc_add_two, fun _ _ => rfl, .inl rfl,
    fun _ ha => s.advance.readByte_storeBytes_outside (hlen ▸ ha), Memory.wf_writeBytes⟩

/-- A skip. -/
theorem completes_of_skipIf {c : Bool} {p : Prop} [Decidable p] (hi : changedParts i = [.pc])
    (hpc : pcAfter s i = s.pcSkip p) (hc : c = true ↔ p) : Completes i s (s.advance.skipIf c) :=
  completes_of_pc hi ((s.pc_skipIf hc).trans hpc.symm)

end

/-! ### Targets, in the terms of Safety.lean -/

theorem zextNnn_eq_ofNat (nnn : BitVec 12) : zextNnn nnn = BitVec.ofNat 16 nnn.toNat :=
  (BitVec.ofNat_toNat 16 nnn).symm

theorem zextByte_add_zextNnn_eq_ofNat (b : Byte) (nnn : BitVec 12) :
    zextByte b + zextNnn nnn = BitVec.ofNat 16 (b.toNat + nnn.toNat) := by
  rw [BitVec.ofNat_add, BitVec.ofNat_toNat, BitVec.ofNat_toNat, zextByte, zextNnn]

theorem State.stack_getElem_eq_getD (s : State) {k : Nat} (h : k < 16) : s.stack[k] = s.stack.toList.getD k 0 := by
  simp [h]

/-! ### Each instruction -/

/-- What DRW may change: registers, the framebuffer, the present events and `PC`. -/
theorem sameExcept_display (s : State) (v : Vector Byte 16) (fb : FrameBuffer) (presents : List FrameBuffer)
    (a : Word) :
    SameExcept [.regs, .frame, .presents, .pc] s { s with v := v, fb := fb, presents := presents, pc := a } :=
  ⟨.inl (by decide), .inr rfl, .inl (by decide), .inr ⟨rfl, rfl⟩, .inr rfl, .inr rfl, .inl (by decide), .inr rfl,
    .inr (State.readByte_congr rfl rfl), .inl (by decide), rfl, rfl, rfl, rfl, rfl⟩

/-- A change of the delay timer and of `PC` changes no other part of the state. -/
theorem sameExcept_delay_pc (s : State) (b : Byte) (a : Word) :
    SameExcept [.delay, .pc] s { s with dt := b, pc := a } :=
  ⟨.inr (State.reg_congr rfl), .inr rfl, .inl (by decide), .inr ⟨rfl, rfl⟩, .inl (by decide), .inr rfl, .inr rfl,
    .inr rfl, .inr (State.readByte_congr rfl rfl), .inr rfl, rfl, rfl, rfl, rfl, rfl⟩

/-- A change of the sound timer and of `PC` changes no other part of the state. -/
theorem sameExcept_sound_pc (s : State) (b : Byte) (a : Word) :
    SameExcept [.sound, .pc] s { s with st := b, pc := a } :=
  ⟨.inr (State.reg_congr rfl), .inr rfl, .inl (by decide), .inr ⟨rfl, rfl⟩, .inr rfl, .inl (by decide), .inr rfl,
    .inr rfl, .inr (State.readByte_congr rfl rfl), .inr rfl, rfl, rfl, rfl, rfl, rfl⟩

theorem completes_drw (x y : Reg) (n : Nat) (s : State) (c : Canvas) :
    Completes (.drw x y n) s ({ s.advance with fb := c.fb }.setReg VF (flagOf c.hit)).present := by
  refine ⟨sameExcept_display s _ _ _ _, s.pc_add_two, fun r hr => ?_, .inl rfl, fun _ _ => rfl, id⟩
  exact (s.reg_setReg VF r _).trans (if_neg (beq_eq_false_iff_ne.1 hr))

theorem completes_loadRegs (x : Reg) (s : State) :
    Completes (.loadRegs x) s (s.advance.loadBlock s.i.toNat (x.val + 1)) := by
  have hreg (r : Reg) := s.advance.reg_loadBlock s.i.toNat (x.val + 1) r
  obtain ⟨v, hv⟩ := s.advance.loadBlock_eq s.i.toNat (x.val + 1)
  rw [hv] at hreg ⊢
  refine completes_of_regs rfl rfl fun r hr => (hreg r).trans (if_neg ?_)
  have : ¬ r.val ≤ x.val := of_decide_eq_false hr
  omega

/-- Where no fault condition holds, an instruction completes: those with a guard by the lemma for its other side, and the
others in every state. -/
theorem exec_completes {s : State} {i : Instr} (h : ∀ k, ¬ faultCondition s i k) :
    ∃ t, exec i s = .next t ∧ Completes i s t := by
  cases i with
  | cls => exact ⟨_, rfl, exec_cls_frame s, s.pc_add_two, fun _ _ => rfl, .inl rfl, fun _ _ => rfl, id⟩
  | drw x y n => exact ⟨_, exec_drw_completes h, completes_drw x y n s _⟩
  | call nnn =>
    obtain ⟨_, hnext⟩ := exec_call_completes h
    exact ⟨_, hnext, completes_of_same (sameExcept_stack_pc s _ _ _) (zextNnn_eq_ofNat nnn) rfl rfl rfl rfl⟩
  | ret =>
    obtain ⟨_, hnext⟩ := exec_ret_completes h
    exact ⟨_, hnext, completes_of_same (sameExcept_stack_pc s _ _ _) (s.stack_getElem_eq_getD _) rfl rfl rfl rfl⟩
  | ldBcd x => exact ⟨_, exec_ldBcd_completes h, completes_of_storeBytes rfl rfl rfl⟩
  | storeRegs x => exact ⟨_, exec_storeRegs_completes h, completes_of_storeBytes rfl rfl (s.length_regBlock x)⟩
  | loadRegs x => exact ⟨_, exec_loadRegs_completes h, completes_loadRegs x s⟩
  | skp x => exact ⟨_, exec_skp_completes h, completes_of_skipIf rfl rfl Iff.rfl⟩
  | sknp x => exact ⟨_, exec_sknp_completes h, completes_of_skipIf rfl rfl (by simp)⟩
  | seByte x kk | seReg x kk => exact ⟨_, rfl, completes_of_skipIf rfl rfl beq_iff_eq⟩
  | sneByte x kk | sneReg x kk => exact ⟨_, rfl, completes_of_skipIf rfl rfl bne_iff_ne⟩
  | jp nnn => exact ⟨_, rfl, completes_of_pc rfl (zextNnn_eq_ofNat nnn)⟩
  | jpV0 nnn => exact ⟨_, rfl, completes_of_pc rfl (zextByte_add_zextNnn_eq_ofNat _ nnn)⟩
  | ldByte | addByte | ldReg | orReg | andReg | xorReg | rnd | ldVxDt =>
    exact ⟨_, rfl, completes_of_setReg rfl rfl (beq_self_eq_true _)⟩
  | addReg | subReg | shr | subnReg | shl =>
    exact ⟨_, rfl, completes_of_setRegFlag rfl rfl (by simp [mayWrite]) (by simp [mayWrite])⟩
  | ldI | addI | ldFont =>
    exact ⟨_, rfl, completes_of_same (sameExcept_index_pc s _ _) s.pc_add_two rfl rfl rfl rfl⟩
  | ldDtVx x => exact ⟨_, rfl, completes_of_same (sameExcept_delay_pc s _ _) s.pc_add_two rfl rfl rfl rfl⟩
  | ldStVx x => exact ⟨_, rfl, completes_of_same (sameExcept_sound_pc s _ _) s.pc_add_two rfl rfl rfl rfl⟩
  | ldVxKey x =>
    exact ⟨_, rfl, sameExcept_run_pc s _ _, s.pc_add_two, fun _ _ => rfl, .inr ⟨x, rfl, rfl⟩, fun _ _ => rfl, id⟩

/-- The two cases of an instruction, with their guards. -/
theorem exec_cases (i : Instr) (s : State) :
    (∃ k, faultCondition s i k ∧ exec i s = s.raise k (some (encode i)) (faultInfo s i)) ∨
    ((∀ k, ¬ faultCondition s i k) ∧ ∃ t, exec i s = .next t ∧ Completes i s t) := by
  by_cases h : ∃ k, faultCondition s i k
  · obtain ⟨k, hk⟩ := h
    exact .inl ⟨k, hk, exec_of_faultCondition hk⟩
  · have hnone := not_exists.1 h
    exact .inr ⟨hnone, exec_completes hnone⟩

end Sys2Proof.Machine

/-! PROOFS. Every instruction at once: it answers a next state, raises exactly under its condition, and changes only what
the rules name (R22, R24, R28, R50, R112, R186, R246, R278). -/

namespace Sys2Proof.Machine

/-! ## Answers and faults -/

/-- A fault answers a next state in which only the run state is another. -/
theorem State.raise_eq_next {s t : State} {kind : FaultKind} {opcode : Option Word} {info : Option Nat}
    (h : s.raise kind opcode info = .next t) : t = { s with rs := .faulted ⟨kind, opcode, s.pc, info⟩ } :=
  (Host.Outcome.next.inj h).symm

/-- Settles O12: raising and completing are both next states. -/
theorem everyInstructionAnswersANextState : Obligations.EveryInstructionAnswersANextState := by
  intro i s
  obtain ⟨k, -, hraise⟩ | ⟨-, t, hnext, -⟩ := exec_cases i s
  · exact ⟨_, hraise⟩
  · exact ⟨t, hnext⟩

/-- What an instruction that answered `t` did: it raised its fault, or it completed. -/
theorem exec_eq_next {i : Instr} {s t : State} (h : exec i s = .next t) :
    (∃ k, faultCondition s i k ∧ t = { s with rs := .faulted ⟨k, some (encode i), s.pc, faultInfo s i⟩ }) ∨
    ((∀ k, ¬ faultCondition s i k) ∧ Completes i s t) := by
  obtain ⟨k, hk, hraise⟩ | ⟨hnone, t', hnext, hcomp⟩ := exec_cases i s
  · exact .inl ⟨k, hk, State.raise_eq_next (hraise.symm.trans h)⟩
  · cases hnext.symm.trans h
    exact .inr ⟨hnone, hcomp⟩

/-- An instruction that completes from Running does not halt. -/
theorem Completes.not_faulted {i : Instr} {s t : State} (h : Completes i s t) (hrun : s.rs = .running)
    (report : FaultReport) : t.rs ≠ .faulted report := by
  obtain hrs | ⟨x, -, hrs⟩ := h.run
  · rw [hrs, hrun]; exact nofun
  · rw [hrs]; exact nofun

/-- Settles O13: a raised fault has the one kind whose condition holds, and a completed instruction has not halted. -/
theorem instructionFaultsExactlyUnderItsCondition : Obligations.InstructionFaultsExactlyUnderItsCondition := by
  intro i s t hrun h
  obtain ⟨k', hk', rfl⟩ | ⟨hnone, hcomp⟩ := exec_eq_next h
  · refine ⟨fun k => ⟨fun hk => ⟨_, rfl, faultCondition_unique hk' hk⟩, ?_⟩, fun hnone => absurd hk' (hnone k')⟩
    rintro ⟨report, hreport, rfl⟩
    cases hreport
    exact hk'
  · refine ⟨fun k => ⟨fun hk => absurd hk (hnone k), ?_⟩, fun _ => ?_⟩
    · rintro ⟨report, hreport, -⟩
      exact absurd hreport (hcomp.not_faulted hrun report)
    · rw [← hrun]; exact hcomp.run

/-- Settles O14: the access past 0xFFF is the fault condition, and `info` is the lowest address of it. -/
theorem outOfRangeAccessFaultsWithoutEffect : Obligations.OutOfRangeAccessFaultsWithoutEffect := by
  intro i s hcount hout
  have h := exec_of_faultCondition (faultCondition_memoryOutOfRange_iff.2 ⟨hcount, hout⟩)
  rwa [faultInfo_of_access hcount] at h

/-- Settles O11: a state that is not halted is not a raised one, and `Completes` gives its `PC`. -/
theorem programCounterAfterEveryInstruction : Obligations.ProgramCounterAfterEveryInstruction := by
  intro i s t h hlive
  obtain ⟨k, -, rfl⟩ | ⟨-, hcomp⟩ := exec_eq_next h
  · exact absurd rfl (hlive _)
  · exact hcomp.pc

/-! ## Frames -/

/-- Settles O32: a raised fault leaves all registers, and a completed instruction those it may not write. -/
theorem registersChangeOnlyWhereNamed : Obligations.RegistersChangeOnlyWhereNamed := by
  intro i s t r h hr
  obtain ⟨k, -, rfl⟩ | ⟨-, hcomp⟩ := exec_eq_next h
  · rfl
  · exact hcomp.regs r hr

/-- Settles O38: a raised fault leaves all of memory, and a completed instruction what lies outside its store. -/
theorem memoryChangesOnlyInTheStoredRange : Obligations.MemoryChangesOnlyInTheStoredRange := by
  intro i s t a h ha
  obtain ⟨k, -, rfl⟩ | ⟨-, hcomp⟩ := exec_eq_next h
  · rfl
  · exact hcomp.memory a ha

section
variable {changed : List Part} {s t : State}

theorem SameExcept.index_eq (h : SameExcept changed s t) (hn : Part.index ∉ changed) : t.i = s.i := by
  obtain ⟨-, hindex, -⟩ := h
  exact hindex.resolve_left hn

theorem SameExcept.stack_eq (h : SameExcept changed s t) (hn : Part.stack ∉ changed) :
    t.stack = s.stack ∧ t.sp = s.sp := by
  obtain ⟨-, -, -, hstack, -⟩ := h
  exact hstack.resolve_left hn

theorem SameExcept.delay_eq (h : SameExcept changed s t) (hn : Part.delay ∉ changed) : t.dt = s.dt := by
  obtain ⟨-, -, -, -, hdelay, -⟩ := h
  exact hdelay.resolve_left hn

theorem SameExcept.sound_eq (h : SameExcept changed s t) (hn : Part.sound ∉ changed) : t.st = s.st := by
  obtain ⟨-, -, -, -, -, hsound, -⟩ := h
  exact hsound.resolve_left hn

end

theorem stack_mem_changedParts {i : Instr} (h : Part.stack ∈ changedParts i) : (∃ nnn, i = .call nnn) ∨ i = .ret := by
  cases i <;> simp [changedParts] at h ⊢

theorem index_mem_changedParts {i : Instr} (h : Part.index ∈ changedParts i) :
    (∃ nnn, i = .ldI nnn) ∨ (∃ x, i = .addI x) ∨ ∃ x, i = .ldFont x := by
  cases i <;> simp [changedParts] at h ⊢

theorem delay_mem_changedParts {i : Instr} (h : Part.delay ∈ changedParts i) : ∃ x, i = .ldDtVx x := by
  cases i <;> simp [changedParts] at h ⊢

theorem sound_mem_changedParts {i : Instr} (h : Part.sound ∈ changedParts i) : ∃ x, i = .ldStVx x := by
  cases i <;> simp [changedParts] at h ⊢

/-- Settles O26: the stack is a part that only `2nnn` and `00EE` may change. -/
theorem onlyCallAndRetTouchTheStack : Obligations.OnlyCallAndRetTouchTheStack := by
  intro i s t h hcall hret
  obtain ⟨k, -, rfl⟩ | ⟨-, hcomp⟩ := exec_eq_next h
  · exact ⟨rfl, rfl⟩
  · refine hcomp.parts.stack_eq fun hmem => ?_
    obtain ⟨nnn, hi⟩ | hi := stack_mem_changedParts hmem
    · exact hcall nnn hi
    · exact hret hi

/-- Settles O39: `I` is a part that only `Annn`, `Fx1E` and `Fx29` may change. -/
theorem onlyThreeInstructionsWriteI : Obligations.OnlyThreeInstructionsWriteI := by
  intro i s t h hldI haddI hldFont
  obtain ⟨k, -, rfl⟩ | ⟨-, hcomp⟩ := exec_eq_next h
  · rfl
  · refine hcomp.parts.index_eq fun hmem => ?_
    obtain ⟨nnn, hi⟩ | ⟨x, hi⟩ | ⟨x, hi⟩ := index_mem_changedParts hmem
    · exact hldI nnn hi
    · exact haddI x hi
    · exact hldFont x hi

/-- Settles O47: each timer is a part that only its own instruction may change. -/
theorem timersAreWrittenByTheirInstructionsOnly : Obligations.TimersAreWrittenByTheirInstructionsOnly := by
  intro i s t h
  obtain ⟨k, -, rfl⟩ | ⟨-, hcomp⟩ := exec_eq_next h
  · exact ⟨fun _ => rfl, fun _ => rfl⟩
  · refine ⟨fun hother => hcomp.parts.delay_eq fun hmem => ?_, fun hother => hcomp.parts.sound_eq fun hmem => ?_⟩
    · obtain ⟨x, hi⟩ := delay_mem_changedParts hmem
      exact hother x hi
    · obtain ⟨x, hi⟩ := sound_mem_changedParts hmem
      exact hother x hi

end Sys2Proof.Machine

/-! PROOFS. What an instruction does not read: the key levels, the random byte and the sound timer (R17, R31, R254). -/

namespace Sys2Proof.Machine

/-! ## Other inputs, the same effect -/

/-- The state with other key levels, another random byte and another sound timer, each where one is given. -/
def State.override (s : State) (keys : Option Word) (rnd st : Option Byte) : State :=
  { s with keys := keys.getD s.keys, rnd := rnd.getD s.rnd, st := st.getD s.st }

section
variable {i : Instr} {s t : State} {keys : Option Word} {rnd st : Option Byte}

theorem State.drawn_override (x y : Reg) (n : Nat) : (s.override keys rnd st).drawn x y n = s.drawn x y n := by
  unfold State.drawn
  rw [State.readBytes_congr (s := s) (t := s.override keys rnd st) rfl rfl]
  rfl

theorem State.loadBlock_override (a n : Nat) :
    (s.override keys rnd st).loadBlock a n = (s.loadBlock a n).override keys rnd st := by
  induction n with
  | zero => rfl
  | succ n ih =>
    rw [State.loadBlock, ih]
    rfl

/-- No fault condition reads the three fields. -/
theorem faultCondition_override {k : FaultKind} :
    faultCondition (s.override keys rnd st) i k ↔ faultCondition s i k := by
  cases i <;> exact Iff.rfl

theorem faultInfo_override : faultInfo (s.override keys rnd st) i = faultInfo s i := by
  cases i <;> rfl

/-- An instruction that reads none of the fields that are given another value does the same to everything else. -/
theorem exec_override (h : exec i s = .next t) (hkeys : keys = none ∨ ∀ x, i ≠ .skp x ∧ i ≠ .sknp x)
    (hrnd : rnd = none ∨ ∀ x kk, i ≠ .rnd x kk) (hst : st = none ∨ ∀ x, i ≠ .ldStVx x) :
    exec i (s.override keys rnd st) = .next (t.override keys rnd st) := by
  obtain ⟨k, hk, rfl⟩ | ⟨hnone, -⟩ := exec_eq_next h
  · rw [exec_of_faultCondition (faultCondition_override.2 hk), faultInfo_override]
    rfl
  have hnone' (k : FaultKind) : ¬ faultCondition (s.override keys rnd st) i k :=
    mt faultCondition_override.1 (hnone k)
  cases i with
  | drw x y n =>
    cases (exec_drw_completes hnone).symm.trans h
    rw [exec_drw_completes hnone', State.drawn_override]
    rfl
  | call nnn =>
    obtain ⟨_, hnext⟩ := exec_call_completes hnone
    obtain ⟨_, hnext'⟩ := exec_call_completes hnone'
    cases hnext.symm.trans h
    exact hnext'
  | ret =>
    obtain ⟨_, hnext⟩ := exec_ret_completes hnone
    obtain ⟨_, hnext'⟩ := exec_ret_completes hnone'
    cases hnext.symm.trans h
    exact hnext'
  | ldBcd x =>
    cases (exec_ldBcd_completes hnone).symm.trans h
    exact exec_ldBcd_completes hnone'
  | storeRegs x =>
    cases (exec_storeRegs_completes hnone).symm.trans h
    exact exec_storeRegs_completes hnone'
  | loadRegs x =>
    cases (exec_loadRegs_completes hnone).symm.trans h
    rw [exec_loadRegs_completes hnone']
    exact congrArg Host.Outcome.next (State.loadBlock_override (s := s.advance) _ _)
  | skp x =>
    cases (exec_skp_completes hnone).symm.trans h
    obtain rfl | hother := hkeys
    · exact exec_skp_completes hnone'
    · exact absurd rfl (hother x).1
  | sknp x =>
    cases (exec_sknp_completes hnone).symm.trans h
    obtain rfl | hother := hkeys
    · exact exec_sknp_completes hnone'
    · exact absurd rfl (hother x).2
  | rnd x kk =>
    cases h
    obtain rfl | hother := hrnd
    · rfl
    · exact absurd rfl (hother x kk)
  | ldStVx x =>
    cases h
    obtain rfl | hother := hst
    · rfl
    · exact absurd rfl (hother x)
  | _ => cases h; rfl

end

/-- Settles O48: one of the two inputs is given another value, and the other and the sound timer are left. -/
theorem inputsAreReadByTheirInstructionsOnly : Obligations.InputsAreReadByTheirInstructionsOnly := by
  refine fun i s t keys rnd h => ⟨fun hskp hsknp => ?_, fun hrnd => ?_⟩
  · exact exec_override (keys := some keys) (rnd := none) (st := none) h (.inr fun x => ⟨hskp x, hsknp x⟩) (.inl rfl)
      (.inl rfl)
  · exact exec_override (keys := none) (rnd := some rnd) (st := none) h (.inl rfl) (.inr hrnd) (.inl rfl)

/-- Settles O49: the sound timer is given another value, which `Fx18` overwrites without reading it. -/
theorem noInstructionReadsTheSoundTimer : Obligations.NoInstructionReadsTheSoundTimer := by
  refine fun i s t b h => ⟨fun hother => ?_, ?_⟩
  · exact exec_override (keys := none) (rnd := none) (st := some b) h (.inl rfl) (.inl rfl) (.inr hother)
  · rintro ⟨x, rfl⟩
    cases h
    rfl

end Sys2Proof.Machine

/-! PROOFS. The step: which operation it is and what a fault in it leaves (R8, R100 to R110, R245), and the invariants
that every step keeps (R27, R243). -/

namespace Sys2Proof.Machine

/-! ## The step (R100 to R109) -/

/-- The instruction of two bytes and no more is that of their word. -/
theorem decodeWord_of_decode {hi lo : Byte} {i : Instr} (h : decode [hi, lo] = .ok (i, [])) :
    decodeWord (wordOfBytes hi lo) = some i := by
  simp only [decode] at h
  split at h
  next hd => cases h; exact hd
  next => cases h

/-- A running step at a fetchable `PC` runs the decoded instruction, at the latched inputs. -/
theorem State.stepOp_exec {s : State} {i : Instr} (keys : Word) (rnd : Byte) (hrun : s.rs = .running)
    (heven : s.pc.toNat % 2 = 0) (hle : s.pc.toNat ≤ 0xFFE)
    (hd : decodeWord (wordOfBytes (s.readByte s.pc.toNat) (s.readByte (s.pc.toNat + 1))) = some i) :
    s.stepOp keys rnd = exec i { s with keys := keys, rnd := rnd } := by
  rw [State.stepOp_running hrun]
  exact State.cycle_exec (State.fetch_ok heven hle) hd

/-- Settles O6: the operation is a running step, whether the schedule names it or is empty. -/
theorem stepRunsTheDecodedInstruction : Obligations.StepRunsTheDecodedInstruction := by
  intro s i hrun heven hle hdecode
  have hd := decodeWord_of_decode hdecode
  refine ⟨fun keys rnd rest hsched => ?_, fun hsched => ?_⟩
  · rw [step_cons hsched]
    exact State.stepOp_exec (s := { s with schedule := rest }) keys rnd hrun heven hle hd
  · rw [step_nil hsched]
    exact State.stepOp_exec (s := { s with draws := s.draws + 1 }) _ _ hrun heven hle hd

/-- Settles O7: the fetch checks that `PC` is even before it checks the range, and its fault is raised at once. -/
theorem fetchFaultsAtOddOrHighPc : Obligations.FetchFaultsAtOddOrHighPc := by
  refine fun s keys rnd hrun => ⟨fun hodd => ?_, fun heven hhigh => ?_⟩
  · rw [State.stepOp_running hrun]
    exact State.cycle_error (State.fetch_odd hodd)
  · rw [State.stepOp_running hrun]
    exact State.cycle_error (State.fetch_high heven hhigh)

/-- Settles O8: a step in the wait is the state itself, and a tick is that of a live state. -/
theorem stepIsNoOpWhileAwaitingKey : Obligations.StepIsNoOpWhileAwaitingKey := by
  refine fun s r hwait => ⟨fun keys rnd => State.stepOp_awaiting hwait, fun keys rnd rest hsched => ?_,
    fun hsched => ?_, fun rest hsched => ?_⟩
  · rw [step_cons hsched]
    exact State.stepOp_awaiting hwait
  · rw [step_nil hsched]
    exact State.stepOp_awaiting hwait
  · have hlive (report : FaultReport) : { s with schedule := rest }.rs ≠ .faulted report := by
      rw [hwait]; exact nofun
    rw [step_cons hsched, State.operate, State.tickTimers_live hlive]
    exact ⟨_, rfl, decrement_toNat s.dt, decrement_toNat s.st, sameExcept_timers _ _ _⟩

/-- Once faulted, every operation but reset leaves the state. -/
theorem State.operate_faulted {s : State} {report : FaultReport} (h : s.rs = .faulted report) {op : HostOp}
    (hop : ∀ rom, op ≠ .reset rom) : s.operate op = .next s := by
  cases op with
  | step keys rnd => exact State.stepOp_faulted h
  | tickTimers => exact congrArg Host.Outcome.next (State.tickTimers_faulted h)
  | keyEvent mask =>
    exact congrArg Host.Outcome.next (State.keyEvent_elsewhere (.inl fun r => by rw [h]; exact nofun))
  | reset rom => exact absurd rfl (hop rom)

/-- Settles O9: every operation of a faulted state but reset, by its kind. -/
theorem onlyResetLeavesFaulted : Obligations.OnlyResetLeavesFaulted := by
  refine fun s report hfault => ⟨fun op hop => State.operate_faulted hfault hop, fun op rest hsched hop => ?_,
    fun hsched => ?_⟩
  · rw [step_cons hsched]
    exact State.operate_faulted (s := { s with schedule := rest }) hfault hop
  · rw [step_nil hsched]
    exact State.stepOp_faulted hfault

/-! ## Precise faults (R110) -/

/-- What a cycle that answered `t` did: a fetch fault, an unknown opcode, the fault of the instruction or its
completion. -/
theorem State.cycle_eq_next {s t : State} (h : s.cycle = .next t) :
    (s.pc.toNat % 2 = 1 ∧ t = { s with rs := .faulted ⟨.pcMisaligned, none, s.pc, some s.pc.toNat⟩ }) ∨
    (s.pc.toNat % 2 = 0 ∧ s.pc.toNat > 0xFFE ∧
      t = { s with rs := .faulted ⟨.memoryOutOfRange, none, s.pc, some (max s.pc.toNat 0x1000)⟩ }) ∨
    (∃ w, s.fetch = .ok w ∧ decodeWord w = none ∧
      t = { s with rs := .faulted ⟨.unknownOpcode, some w, s.pc, some w.toNat⟩ }) ∨
    (∃ i k, s.fetch = .ok (encode i) ∧ decodeWord (encode i) = some i ∧ faultCondition s i k ∧
      t = { s with rs := .faulted ⟨k, some (encode i), s.pc, faultInfo s i⟩ }) ∨
    (s.pc.toNat % 2 = 0 ∧ s.pc.toNat ≤ 0xFFE ∧ ∃ i, exec i s = .next t ∧ (∀ k, ¬ faultCondition s i k) ∧
      Completes i s t) := by
  obtain ⟨hodd, hc⟩ | ⟨heven, hhigh, hc⟩ | ⟨-, -, w, hf, hd, hc⟩ | ⟨heven, hle, w, i, hf, hd, hc⟩ := s.cycle_cases
  · exact .inl ⟨hodd, State.raise_eq_next (hc.symm.trans h)⟩
  · exact .inr (.inl ⟨heven, hhigh, State.raise_eq_next (hc.symm.trans h)⟩)
  · exact .inr (.inr (.inl ⟨w, hf, hd, State.raise_eq_next (hc.symm.trans h)⟩))
  · have hexec := hc.symm.trans h
    obtain rfl := encode_of_decodeWord hd
    obtain ⟨k, hk, ht⟩ | ⟨hnone, hcomp⟩ := exec_eq_next hexec
    · exact .inr (.inr (.inr (.inl ⟨i, k, hf, hd, hk, ht⟩)))
    · exact .inr (.inr (.inr (.inr ⟨heven, hle, i, hexec, hnone, hcomp⟩)))

/-- A fetch at an odd `PC`, or at one above 0xFFE, gives no word. -/
theorem State.fetch_ne_ok {s : State} (h : s.pc.toNat % 2 = 1 ∨ s.pc.toNat > 0xFFE) (w : Word) : s.fetch ≠ .ok w := by
  by_cases hodd : s.pc.toNat % 2 = 1
  · rw [State.fetch_odd hodd]; exact nofun
  · rw [State.fetch_high (by omega) (by omega)]; exact nofun

/-- Settles O10: each fault of a cycle is a raise, with the word that was fetched, if one was. -/
theorem faultingStepChangesOnlyTheRunState : Obligations.FaultingStepChangesOnlyTheRunState := by
  intro s t keys rnd report hrun h hreport
  rw [State.stepOp_running hrun] at h
  obtain ⟨hodd, rfl⟩ | ⟨-, hhigh, rfl⟩ | ⟨w, hf, -, rfl⟩ | ⟨i, k, hf, -, -, rfl⟩ | ⟨-, -, i, -, -, hcomp⟩ :=
    State.cycle_eq_next h
  · cases hreport
    exact ⟨rfl, rfl, .inl ⟨rfl, State.fetch_ne_ok (.inl hodd)⟩⟩
  · cases hreport
    exact ⟨rfl, rfl, .inl ⟨rfl, State.fetch_ne_ok (.inr hhigh)⟩⟩
  · cases hreport
    exact ⟨rfl, rfl, .inr ⟨w, hf, rfl⟩⟩
  · cases hreport
    exact ⟨rfl, rfl, .inr ⟨_, hf, rfl⟩⟩
  · exact absurd hreport (hcomp.not_faulted hrun report)

/-! ## The state in range (R27) -/

theorem State.pcPlus_le {s : State} (h : s.pc.toNat ≤ 0xFFE) {d : Nat} (hd : d ≤ 4) : (s.pcPlus d).toNat ≤ 0x10FE := by
  rw [State.pcPlus, BitVec.toNat_ofNat]
  omega

theorem State.pcSkip_le {s : State} (h : s.pc.toNat ≤ 0xFFE) (c : Prop) [Decidable c] :
    (s.pcSkip c).toNat ≤ 0x10FE := by
  unfold State.pcSkip
  split
  · exact State.pcPlus_le h (by decide)
  · exact State.pcPlus_le h (by decide)

/-- The greatest `PC` is that of `Bnnn` with `V0` and `nnn` at their greatest: 0xFF + 0xFFF (R27). -/
theorem pcAfter_le {s : State} {i : Instr} (hinv : s.Inv) (hle : s.pc.toNat ≤ 0xFFE)
    (hnone : ∀ k, ¬ faultCondition s i k) : (pcAfter s i).toNat ≤ 0x10FE := by
  cases i with
  | jp nnn | call nnn =>
    have := nnn.isLt
    rw [pcAfter, BitVec.toNat_ofNat]
    omega
  | jpV0 nnn =>
    have := nnn.isLt
    have := (s.reg 0).isLt
    rw [pcAfter, BitVec.toNat_ofNat]
    omega
  | ret =>
    have hheld : s.sp.val ≠ 0 := fun hempty => hnone .stackUnderflow ⟨rfl, hempty⟩
    have hentry := (hinv.stackRange ⟨s.sp.val - 1, by omega⟩ (Nat.sub_one_lt hheld)).1
    rw [pcAfter, ← s.stack_getElem_eq_getD (by omega)]
    exact Nat.le_trans hentry (by decide)
  | seByte | sneByte | seReg | sneReg | skp | sknp => exact State.pcSkip_le hle _
  | _ => exact State.pcPlus_le hle (by decide)

/-- The live entries after an instruction that completes: a call adds the address after itself, which is even and at most
0x1000; a return takes one away; the others leave the stack. -/
theorem stackRange_of_exec {i : Instr} {s t : State} (hinv : s.Inv) (heven : s.pc.toNat % 2 = 0)
    (hle : s.pc.toNat ≤ 0xFFE) (h : exec i s = .next t) (hnone : ∀ k, ¬ faultCondition s i k)
    (hcomp : Completes i s t) :
    ∀ k : Fin 16, k.val < t.sp.val → t.stack[k.val].toNat ≤ 0x1000 ∧ t.stack[k.val].toNat % 2 = 0 := by
  by_cases hmem : Part.stack ∈ changedParts i
  · obtain ⟨nnn, rfl⟩ | rfl := stack_mem_changedParts hmem
    · obtain ⟨hroom, hnext⟩ := exec_call_completes hnone
      cases hnext.symm.trans h
      intro k hk
      rw [Vector.getElem_set]
      split
      · rw [s.pc_add_two, State.pcPlus, BitVec.toNat_ofNat]
        omega
      · have : k.val < s.sp.val + 1 := hk
        exact hinv.stackRange k (by omega)
    · obtain ⟨hheld, hnext⟩ := exec_ret_completes hnone
      cases hnext.symm.trans h
      exact fun k hk => hinv.stackRange k (Nat.lt_of_lt_of_le hk (Nat.sub_le _ _))
  · obtain ⟨hstack, hsp⟩ := hcomp.parts.stack_eq hmem
    rw [hstack, hsp]
    exact hinv.stackRange

/-- A cycle keeps the state in range: a fault changes the run state only. -/
theorem State.Inv.cycle {s t : State} (hinv : s.Inv) (h : s.cycle = .next t) : t.Inv := by
  obtain ⟨-, rfl⟩ | ⟨-, -, rfl⟩ | ⟨w, -, -, rfl⟩ | ⟨i, k, -, -, -, rfl⟩ | ⟨heven, hle, i, hexec, hnone, hcomp⟩ :=
    State.cycle_eq_next h
  case inr.inr.inr.inr =>
    exact ⟨hcomp.canonical hinv.memory, hcomp.pc ▸ pcAfter_le hinv hle hnone,
      stackRange_of_exec hinv heven hle hexec hnone hcomp⟩
  all_goals exact ⟨hinv.memory, hinv.pcRange, hinv.stackRange⟩

/-! ## The other operations, in the terms of the invariants -/

/-- A tick leaves a faulted state, and in a live one it changes the timers only. -/
theorem State.tickTimers_cases (s : State) :
    s.tickTimers = s ∨ (∀ report, s.rs ≠ .faulted report) ∧ ∃ dt st, s.tickTimers = { s with dt := dt, st := st } := by
  by_cases hlive : ∀ report, s.rs ≠ .faulted report
  · exact .inr ⟨hlive, _, _, State.tickTimers_live hlive⟩
  · obtain ⟨report, hreport⟩ := not_forall_not.1 hlive
    exact .inl (State.tickTimers_faulted hreport)

/-- A key event leaves the state, or it ends a wait and writes a register. -/
theorem State.keyEvent_cases (s : State) (mask : Word) :
    s.keyEvent mask = s ∨ ∃ v, s.keyEvent mask = { s with v := v, rs := .running } := by
  by_cases hwait : (∀ r, s.rs ≠ .awaitingKey r) ∨ mask = 0
  · exact .inl (State.keyEvent_elsewhere hwait)
  · obtain ⟨hwait, hmask⟩ := not_or.1 hwait
    obtain ⟨r, hr⟩ := not_forall_not.1 hwait
    obtain ⟨k, hk, -⟩ := lowestKey_spec hmask
    exact .inr ⟨_, State.keyEvent_awaiting hr hk⟩

/-- A reset that answers a state has an image that fits. -/
theorem State.resetWith_eq_next {s t : State} {rom : List Byte} (h : s.resetWith rom = .next t) :
    t = { State.reset with
      mem := Memory.writeBytes s.font [] 0x200 rom
      font := s.font, keys := s.keys, rnd := s.rnd, schedule := s.schedule, draws := s.draws,
      presents := s.presents } := by
  by_cases hfit : rom.length ≤ 3584
  · exact (Host.Outcome.next.inj ((State.resetWith_fits hfit).symm.trans h)).symm
  · cases (State.resetWith_tooLarge (by omega)).symm.trans h

/-- A step of the CORE runs a cycle, or leaves the state where it is not running. -/
theorem State.stepOp_cases (s : State) (keys : Word) (rnd : Byte) :
    s.rs = .running ∧ s.stepOp keys rnd = { s with keys := keys, rnd := rnd }.cycle ∨ s.stepOp keys rnd = .next s := by
  by_cases hrun : s.rs = .running
  · exact .inl ⟨hrun, State.stepOp_running hrun⟩
  · refine .inr ?_
    cases hrs : s.rs with
    | running => exact absurd hrs hrun
    | awaitingKey r => exact State.stepOp_awaiting hrs
    | faulted report => exact State.stepOp_faulted hrs

/-! ## Both invariants, kept by every step -/

/-- With an empty stack and `PC` at 0x200, only the memory is left to check. -/
theorem State.inv_of_reset {s : State} (hmem : Memory.wf s.font s.mem) (hpc : s.pc = 0x200) (hsp : s.sp = 0) : s.Inv :=
  ⟨hmem, by rw [hpc]; decide, fun k hk => by rw [hsp] at hk; exact absurd hk (Nat.not_lt_zero _)⟩

theorem State.Inv.operate {s t : State} {op : HostOp} (hinv : s.Inv) (h : s.operate op = .next t) : t.Inv := by
  obtain ⟨hmem, hpc, hstack⟩ := hinv
  cases op with
  | step keys rnd =>
    obtain ⟨-, hcycle⟩ | hsame := s.stepOp_cases keys rnd
    · exact State.Inv.cycle (s := { s with keys := keys, rnd := rnd }) ⟨hmem, hpc, hstack⟩ (hcycle.symm.trans h)
    · cases hsame.symm.trans h
      exact ⟨hmem, hpc, hstack⟩
  | tickTimers =>
    cases h
    obtain hsame | ⟨-, dt, st, htick⟩ := s.tickTimers_cases
    · rw [hsame]; exact ⟨hmem, hpc, hstack⟩
    · rw [htick]; exact ⟨hmem, hpc, hstack⟩
  | keyEvent mask =>
    cases h
    obtain hsame | ⟨v, hkey⟩ := s.keyEvent_cases mask
    · rw [hsame]; exact ⟨hmem, hpc, hstack⟩
    · rw [hkey]; exact ⟨hmem, hpc, hstack⟩
  | reset rom =>
    rw [State.resetWith_eq_next h]
    exact State.inv_of_reset (Memory.wf_writeBytes Memory.wf_nil) rfl rfl

/-- Settles O53: a step is one operation, and its schedule and counter are in no part of the invariant. -/
theorem stepKeepsTheStateInRange : Obligations.StepKeepsTheStateInRange := by
  intro s t hinv h
  obtain ⟨op, rest, n, hstep⟩ := step_eq_operate s
  exact State.Inv.operate (s := { s with schedule := rest, draws := n })
    ⟨hinv.memory, hinv.pcRange, hinv.stackRange⟩ (hstep.symm.trans h)

/-- A state that is not halted has no report to check. -/
theorem State.faultInv_of_live {s : State} (h : ∀ report, s.rs ≠ .faulted report) : s.FaultInv :=
  fun report hreport => absurd hreport (h report)

/-- A raised report that fits the state it was raised in fits the halted state, which differs in the run state only. -/
theorem State.faultInv_of_raise {s : State} {report : FaultReport} (h : s.reportFits report) :
    { s with rs := .faulted report }.FaultInv := by
  intro report' hreport
  cases hreport
  exact h

/-- The report of an instruction's own fault fits (R243): by kind, and for an access by the instruction's range. -/
theorem State.reportFits_of_faultCondition {s : State} {i : Instr} {k : FaultKind}
    (hd : decodeWord (encode i) = some i) (h : faultCondition s i k) :
    s.reportFits ⟨k, some (encode i), s.pc, faultInfo s i⟩ := by
  cases i with
  | call nnn => obtain ⟨rfl, hfull⟩ := h; exact ⟨rfl, ⟨nnn, rfl⟩, hfull, rfl⟩
  | ret => obtain ⟨rfl, hempty⟩ := h; exact ⟨rfl, rfl, hempty, rfl⟩
  | skp x => obtain ⟨rfl, hkey⟩ := h; exact ⟨rfl, x, .inl rfl, hkey, rfl⟩
  | sknp x => obtain ⟨rfl, hkey⟩ := h; exact ⟨rfl, x, .inr rfl, hkey, rfl⟩
  | drw | ldBcd | storeRegs | loadRegs =>
    obtain rfl := h.1
    obtain ⟨hcount, hout⟩ := faultCondition_memoryOutOfRange_iff.1 h
    exact ⟨rfl, .inr ⟨_, _, rfl, hd, hcount, hout, faultInfo_of_access hcount⟩⟩
  | _ => cases h

/-- A cycle from Running ends halted only with a report that fits. -/
theorem State.cycle_faultInv {s t : State} (hrun : s.rs = .running) (h : s.cycle = .next t) : t.FaultInv := by
  obtain ⟨hodd, rfl⟩ | ⟨-, hhigh, rfl⟩ | ⟨w, -, hd, rfl⟩ | ⟨i, k, -, hd, hk, rfl⟩ | ⟨-, -, i, -, -, hcomp⟩ :=
    State.cycle_eq_next h
  · exact State.faultInv_of_raise ⟨rfl, rfl, hodd, rfl⟩
  · exact State.faultInv_of_raise ⟨rfl, .inl ⟨rfl, hhigh, rfl⟩⟩
  · exact State.faultInv_of_raise ⟨rfl, w, rfl, hd, rfl⟩
  · exact State.faultInv_of_raise (State.reportFits_of_faultCondition hd hk)
  · exact State.faultInv_of_live (hcomp.not_faulted hrun)

theorem State.FaultInv.operate {s t : State} {op : HostOp} (hinv : s.FaultInv) (h : s.operate op = .next t) :
    t.FaultInv := by
  cases op with
  | step keys rnd =>
    obtain ⟨hrun, hcycle⟩ | hsame := s.stepOp_cases keys rnd
    · exact State.cycle_faultInv (s := { s with keys := keys, rnd := rnd }) hrun (hcycle.symm.trans h)
    · cases hsame.symm.trans h
      exact hinv
  | tickTimers =>
    cases h
    obtain hsame | ⟨hlive, dt, st, htick⟩ := s.tickTimers_cases
    · rwa [hsame]
    · rw [htick]; exact State.faultInv_of_live hlive
  | keyEvent mask =>
    cases h
    obtain hsame | ⟨v, hkey⟩ := s.keyEvent_cases mask
    · rwa [hsame]
    · rw [hkey]; exact State.faultInv_of_live nofun
  | reset rom =>
    rw [State.resetWith_eq_next h]
    exact State.faultInv_of_live nofun

/-- Settles O54: a step is one operation, and whether a report fits depends on no part of the host's side. -/
theorem stepKeepsFaultReportsTrue : Obligations.StepKeepsFaultReportsTrue := by
  intro s t hinv h
  obtain ⟨op, rest, n, hstep⟩ := step_eq_operate s
  exact State.FaultInv.operate (s := { s with schedule := rest, draws := n }) hinv (hstep.symm.trans h)

/-- Settles O52: memory after reset lists no cell, the stack is empty, and the CORE runs. -/
theorem resetStateMeetsTheInvariants : Obligations.ResetStateMeetsTheInvariants :=
  ⟨State.inv_of_reset Memory.wf_nil rfl rfl, State.faultInv_of_live nofun, nofun, rfl⟩

end Sys2Proof.Machine

/-! PROOFS. The draw: every pixel is XORed with the sprite bit that lands on it, the flag is the collision, and a second
draw undoes the first (R122 to R127). -/

namespace Sys2Proof.Machine

section
variable {x y : Reg} {n : Nat} {s t : State}

/-- Every pixel of the grid after a draw, in the terms of Safety.lean. -/
theorem State.pixel_drawn (s : State) (x y : Reg) (n : Nat) {r c : Nat} (hr : r < 32) (hc : c < 64) :
    FrameBuffer.pixel (s.drawn x y n).fb r c = (FrameBuffer.pixel s.fb r c ^^ s.spriteAt x y n r c) := by
  rw [State.drawn, Canvas.pixel_drawSprite _ _ hr hc, spriteBit_eq_spriteAt]

/-- The collision mark of a draw, in the terms of Safety.lean. -/
theorem State.hit_drawn (s : State) (x y : Reg) (n : Nat) : (s.drawn x y n).hit = true ↔ s.collides x y n := by
  simp only [State.drawn, Canvas.hit_drawSprite, spriteBit_eq_spriteAt, Bool.false_eq_true, false_or, State.collides]

/-- A draw completes as `t`: the framebuffer drawn on, the flag written, the framebuffer presented. -/
structure Draws (x y : Reg) (n : Nat) (s t : State) : Prop where
  pixel : ∀ r c, r < 32 → c < 64 → FrameBuffer.pixel t.fb r c = (FrameBuffer.pixel s.fb r c ^^ s.spriteAt x y n r c)
  flag : t.reg VF = flagOf (s.drawn x y n).hit
  others : ∀ r, r ≠ VF → t.reg r = s.reg r
  presents : t.presents = t.fb :: s.presents
  pc : t.pc = s.pc + 2
  parts : SameExcept [.regs, .frame, .presents, .pc] s t
  font : t.font = s.font
  mem : t.mem = s.mem

theorem exec_drw_draws (h : n = 0 ∨ s.i.toNat + n ≤ 0x1000) : ∃ t, exec (.drw x y n) s = .next t ∧ Draws x y n s t := by
  refine ⟨_, exec_drw_fits x y n h, fun r c hr hc => s.pixel_drawn x y n hr hc, ?_, fun r hr => ?_, rfl, rfl,
    sameExcept_display s _ _ _ _, rfl, rfl⟩
  · exact (s.reg_setReg VF VF _).trans (if_pos rfl)
  · exact (s.reg_setReg VF r _).trans (if_neg hr)

theorem Draws.flag_eq_one_iff (h : Draws x y n s t) : t.reg VF = 1 ↔ s.collides x y n := by
  rw [h.flag, ← s.hit_drawn]
  cases (s.drawn x y n).hit <;> decide

theorem Draws.flag_cases (h : Draws x y n s t) :
    (t.reg VF = 1 ∧ s.collides x y n) ∨ (t.reg VF = 0 ∧ ¬ s.collides x y n) := by
  rw [h.flag, ← s.hit_drawn]
  cases (s.drawn x y n).hit <;> decide

/-- The sprite and its position are the same after a draw that left both coordinates. -/
theorem Draws.spriteAt_eq (h : Draws x y n s t) (hx : t.reg x = s.reg x) (hy : t.reg y = s.reg y) (r c : Nat) :
    t.spriteAt x y n r c = s.spriteAt x y n r c := by
  have hi : t.i = s.i := h.parts.index_eq (by decide)
  simp only [State.spriteAt, hx, hy, hi, State.readByte_congr h.font h.mem]

end

/-- The rows of format `XYN`: the height is any value of its field. -/
theorem encodes_drw : Encodes 0xD000 0xF000 (fun w => .drw (fieldX w) (fieldY w) (fieldN w)) := by
  intro w
  have hround := Laws.RoundTrip.drw (fieldX w) (fieldY w) (fieldN w) (decide_eq_true (fieldN_lt w))
  have hword : encode (.drw (fieldX w) (fieldY w) (fieldN w)) = w ↔ fieldMajor w = 0xD ∧ fieldN w = fieldN w :=
    wordXyn_fields_eq_iff (by decide) (fieldN_lt w)
  have hpattern : (0xD000 : Word).toNat = 0xD * 4096 := rfl
  rw [decodeWord_eq_some_iff hround, eq_comm (a := w), hword, eq_of_maskF000, hpattern]
  omega

/-- Settles O16: the word by its format, the effect by the pixels and the collision mark of the drawing loops. -/
theorem drwTogglesExactlyTheSpritePixels : Obligations.DrwTogglesExactlyTheSpritePixels := by
  refine ⟨encodes_drw, fun x y n s hfit => ?_⟩
  obtain ⟨t, hnext, hdraws⟩ := exec_drw_draws hfit
  exact ⟨t, hnext, hdraws.pixel, hdraws.flag_cases, hdraws.others, hdraws.presents, hdraws.pc, hdraws.parts⟩

/-- What a draw of no rows changes: registers, the present events and `PC`. -/
theorem sameExcept_regs_presents_pc (s : State) (v : Vector Byte 16) (presents : List FrameBuffer) (a : Word) :
    SameExcept [.regs, .presents, .pc] s { s with v := v, presents := presents, pc := a } :=
  ⟨.inl (by decide), .inr rfl, .inl (by decide), .inr ⟨rfl, rfl⟩, .inr rfl, .inr rfl, .inr rfl, .inr rfl,
    .inr (State.readByte_congr rfl rfl), .inl (by decide), rfl, rfl, rfl, rfl, rfl⟩

/-- Settles O17: a sprite of no rows leaves the canvas as it was, so there is no collision. -/
theorem drwOfHeightZeroClearsVfOnly : Obligations.DrwOfHeightZeroClearsVfOnly := by
  refine fun x y s => ⟨_, exec_drw_fits x y 0 (.inl rfl), ?_, fun r hr => ?_, rfl, rfl,
    sameExcept_regs_presents_pc s _ _ _⟩
  · exact (s.reg_setReg VF VF _).trans (if_pos rfl)
  · exact (s.reg_setReg VF r _).trans (if_neg hr)

/-- Settles O18: XOR with the same bits twice is the identity, and the second draw collides where the first turned a
pixel on. -/
theorem drawingTwiceRestoresTheFrame : Obligations.DrawingTwiceRestoresTheFrame := by
  intro x y n s t hfit hnext hx hy
  obtain ⟨t', hnext', hfirst⟩ := exec_drw_draws (x := x) (y := y) hfit
  cases hnext'.symm.trans hnext
  have hi : t.i = s.i := hfirst.parts.index_eq (by decide)
  have hsprite := hfirst.spriteAt_eq hx hy
  obtain ⟨u, hnext₂, hsecond⟩ := exec_drw_draws (x := x) (y := y) (s := t) (hi ▸ hfit)
  refine ⟨u, hnext₂, FrameBuffer.ext_pixel fun r c hr hc => ?_, hsecond.flag_eq_one_iff.trans ?_⟩
  · rw [hsecond.pixel r c hr hc, hsprite, hfirst.pixel r c hr hc, Bool.xor_assoc, Bool.xor_self, Bool.xor_false]
  · have hon (r c : Nat) (hr : r < 32) (hc : c < 64) :
        s.spriteAt x y n r c = true ∧ FrameBuffer.pixel t.fb r c = true ↔
          FrameBuffer.pixel t.fb r c = true ∧ FrameBuffer.pixel s.fb r c = false := by
      rw [hfirst.pixel r c hr hc]
      cases s.spriteAt x y n r c <;> cases FrameBuffer.pixel s.fb r c <;> decide
    unfold State.collides
    simp only [hsprite]
    constructor
    · rintro ⟨r, c, hr, hc, h⟩
      exact ⟨r, c, hr, hc, (hon r c hr hc).1 h⟩
    · rintro ⟨r, c, hr, hc, h⟩
      exact ⟨r, c, hr, hc, (hon r c hr hc).2 h⟩

end Sys2Proof.Machine

/-! PROOFS. The jump by `V0` (R146), a return after a call (R148), and the key skips (R220 to R222). -/

namespace Sys2Proof.Machine

theorem zextByte_add_zextNnn_toNat (b : Byte) (nnn : BitVec 12) :
    (zextByte b + zextNnn nnn).toNat = b.toNat + nnn.toNat := by
  have := b.isLt
  have := nnn.isLt
  rw [BitVec.toNat_add, zextByte_toNat, zextNnn_toNat]
  omega

/-- Settles O21: the sum of a byte and a 12-bit target fits a word, so nothing wraps. -/
theorem jpV0AddsV0 : Obligations.JpV0AddsV0 :=
  ⟨encodes_of_wordNnn (p := 0xB) (by decide) rfl fun nnn => Laws.RoundTrip.jpV0 nnn rfl,
    fun nnn s => ⟨_, rfl, zextByte_add_zextNnn_toNat (s.reg 0) nnn, sameExcept_pc s _⟩⟩

/-- Settles O24: the return pops the slot that the call wrote, and every slot below it is as it was. -/
theorem callThenRetReturnsAfterTheCall : Obligations.CallThenRetReturnsAfterTheCall := by
  refine fun nnn s hroom => ⟨_, exec_call_room nnn hroom, fun u hstack hsp => ?_⟩
  have hdepth : u.sp.val = s.sp.val + 1 := congrArg Fin.val hsp
  refine ⟨_, exec_ret_held (by omega), ?_, Fin.ext ?_, fun k hk => ?_⟩
  · simp only [hstack, hdepth, Nat.add_sub_cancel, Vector.getElem_set_self]
  · simp only [hdepth, Nat.add_sub_cancel]
  · simp only [hstack]
    exact Vector.getElem_set_ne _ _ (by omega)

/-- Settles O41: a value that is a key index tests that key's bit, and any other raises. -/
theorem keySkipsTestTheKeyLevel : Obligations.KeySkipsTestTheKeyLevel := by
  refine ⟨encodes_of_wordXkk_fixed (p := 0xE) (kk := 0x9E) (by decide) rfl fun x => Laws.RoundTrip.skp x rfl,
    encodes_of_wordXkk_fixed (p := 0xE) (kk := 0xA1) (by decide) rfl fun x => Laws.RoundTrip.sknp x rfl,
    fun x s => ⟨fun hkey => ⟨?_, ?_⟩, fun hout => ⟨exec_skp_outside x hout, exec_sknp_outside x hout⟩⟩⟩
  · rw [exec_skp_key x (by omega), s.skipIf_advance_eq Iff.rfl]
  · rw [exec_sknp_key x (by omega),
      s.skipIf_advance_eq (p := ¬ s.keys.getLsbD (s.reg x).toNat = true) (by simp), ite_not]

end Sys2Proof.Machine

/-! PROOFS. Loads and ALU: the moves and bitwise operations (R176 to R179), and the random byte (R185). -/

namespace Sys2Proof.Machine

/-- Settles O28: each writes one register and no flag; bit `k` of a bitwise result is that operation on bits `k`. -/
theorem movesAndBitwiseOpsWriteVx : Obligations.MovesAndBitwiseOpsWriteVx := by
  refine ⟨encodes_of_wordXyn (p := 0x8) (n := 0) (by decide) (by decide) rfl fun x y => Laws.RoundTrip.ldReg x y rfl,
    encodes_of_wordXyn (p := 0x8) (n := 1) (by decide) (by decide) rfl fun x y => Laws.RoundTrip.orReg x y rfl,
    encodes_of_wordXyn (p := 0x8) (n := 2) (by decide) (by decide) rfl fun x y => Laws.RoundTrip.andReg x y rfl,
    encodes_of_wordXyn (p := 0x8) (n := 3) (by decide) (by decide) rfl fun x y => Laws.RoundTrip.xorReg x y rfl,
    fun x y s => ⟨s.reg x ||| s.reg y, s.reg x &&& s.reg y, s.reg x ^^^ s.reg y,
      fun k _ => ⟨BitVec.getLsbD_or, BitVec.getLsbD_and, BitVec.getLsbD_xor⟩, ?_⟩⟩
  exact ⟨setsRegisters_of_setReg rfl rfl, setsRegisters_of_setReg rfl rfl, setsRegisters_of_setReg rfl rfl,
    setsRegisters_of_setReg rfl rfl⟩

/-- Settles O31: the latched random byte is masked bit by bit. -/
theorem rndMasksTheRandomByte : Obligations.RndMasksTheRandomByte :=
  ⟨encodes_of_wordXkk (p := 0xC) (by decide) rfl fun x kk => Laws.RoundTrip.rnd x kk rfl,
    fun _ kk rnd _ => ⟨rnd &&& kk, fun _ _ => BitVec.getLsbD_and, setsRegisters_of_setReg rfl rfl⟩⟩

end Sys2Proof.Machine

/-! PROOFS. Index register and memory: the sum in `I` (R202), the block transfers (R205, R206), and a store that the next
fetch reads (R63). -/

namespace Sys2Proof.Machine

/-- Settles O34: an addition of words is the sum modulo 2^16. -/
theorem addIWrapsModulo65536 : Obligations.AddIWrapsModulo65536 := by
  refine ⟨encodes_of_wordXkk_fixed (p := 0xF) (kk := 0x1E) (by decide) rfl fun x => Laws.RoundTrip.addI x rfl,
    fun x s => ⟨_, rfl, ?_, rfl, sameExcept_index_pc s _ _⟩⟩
  exact (BitVec.toNat_add _ _).trans (by rw [zextByte_toNat])

/-- Settles O36: a stored byte is read back at its place in the block, and the others are outside it. -/
theorem storeRegsDumpsTheBlock : Obligations.StoreRegsDumpsTheBlock := by
  refine ⟨encodes_of_wordXkk_fixed (p := 0xF) (kk := 0x55) (by decide) rfl fun x => Laws.RoundTrip.storeRegs x rfl,
    fun x s hwf hle => ?_⟩
  refine ⟨_, exec_storeRegs_fits x (by omega), fun k hk => ?_, fun a ha => ?_, rfl, sameExcept_memory_pc s _ _⟩
  · have hk : k.val ≤ x.val := hk
    refine (s.readByte_storeRegBlock x _ hwf (by omega)).trans ?_
    rw [State.byteAfterStoreRegs, dif_pos ⟨by omega, by omega⟩]
    simp only [Nat.add_sub_cancel_left]
  · refine s.advance.readByte_storeBytes_outside ?_
    rw [s.length_regBlock]
    omega

/-- Settles O37: the block load reads byte `k` into `V[k]` and stops at `x`. -/
theorem loadRegsFillsTheBlock : Obligations.LoadRegsFillsTheBlock := by
  refine ⟨encodes_of_wordXkk_fixed (p := 0xF) (kk := 0x65) (by decide) rfl fun x => Laws.RoundTrip.loadRegs x rfl,
    fun x s hle => ?_⟩
  have hnext := exec_loadRegs_fits (s := s) x (by omega)
  have hreg (r : Reg) := s.advance.reg_loadBlock s.i.toNat (x.val + 1) r
  obtain ⟨v, hv⟩ := s.advance.loadBlock_eq s.i.toNat (x.val + 1)
  rw [hv] at hnext hreg
  refine ⟨_, hnext, fun r => (hreg r).trans ?_, rfl, sameExcept_regs_pc s _ _⟩
  simp only [Nat.lt_succ_iff, Fin.le_def]
  rfl

/-- A fetch at the `PC` after an instruction at `s.pc`, where the bytes of memory are known. -/
theorem State.fetch_after_advance {s t : State} {byteAfter : Nat → Byte} (heven : s.pc.toNat % 2 = 0)
    (hle : s.pc.toNat + 2 ≤ 0xFFE) (hpc : t.pc = s.pc + 2) (hread : ∀ a, t.readByte a = byteAfter a) :
    ∃ w, t.fetch = .ok w ∧
      w.toNat = (byteAfter (s.pc.toNat + 2)).toNat * 256 + (byteAfter (s.pc.toNat + 3)).toNat := by
  have hpc' : t.pc.toNat = s.pc.toNat + 2 := by
    rw [hpc, s.pc_add_two, State.pcPlus, BitVec.toNat_ofNat]
    omega
  refine ⟨_, State.fetch_ok (by omega) (by omega), ?_⟩
  rw [wordOfBytes_toNat, hread, hread, hpc']

/-- Settles O40: each store fits, so every byte is the one of Safety.lean, and the next fetch reads two of them. -/
theorem storedWordIsFetchedNext : Obligations.StoredWordIsFetchedNext := by
  refine fun x s hwf heven hle => ⟨fun hblock => ?_, fun hdigits => ?_⟩
  · have hfit : s.i.toNat + (x.val + 1) ≤ 0x1000 := by omega
    obtain ⟨w, hfetch, hw⟩ := State.fetch_after_advance heven hle rfl
      (t := s.advance.storeBytes s.i.toNat (s.regBlock x)) fun a => s.readByte_storeRegBlock x a hwf hfit
    exact ⟨_, w, exec_storeRegs_fits x hfit, rfl, hfetch, hw⟩
  · have hfit : s.i.toNat + 3 ≤ 0x1000 := by omega
    obtain ⟨w, hfetch, hw⟩ := State.fetch_after_advance heven hle rfl
      (t := s.advance.storeBytes s.i.toNat (bcdDigits (s.reg x))) fun a => s.readByte_storeDigits x a hwf hfit
    exact ⟨_, w, exec_ldBcd_fits x hfit, rfl, hfetch, hw⟩

end Sys2Proof.Machine

/-! PROOFS. Keys and timers: the timer accesses (R228 to R230), and a wait from its steps and ticks to the key event that
ends it (R224 to R226). -/

namespace Sys2Proof.Machine

/-- Settles O43: each moves one byte in every state. -/
theorem timerAccessMovesTheByte : Obligations.TimerAccessMovesTheByte :=
  ⟨encodes_of_wordXkk_fixed (p := 0xF) (kk := 0x07) (by decide) rfl fun x => Laws.RoundTrip.ldVxDt x rfl,
    encodes_of_wordXkk_fixed (p := 0xF) (kk := 0x15) (by decide) rfl fun x => Laws.RoundTrip.ldDtVx x rfl,
    encodes_of_wordXkk_fixed (p := 0xF) (kk := 0x18) (by decide) rfl fun x => Laws.RoundTrip.ldStVx x rfl,
    fun _ s => ⟨setsRegisters_of_setReg rfl rfl, ⟨_, rfl, rfl, rfl, sameExcept_delay_pc s _ _⟩,
      ⟨_, rfl, rfl, rfl, sameExcept_sound_pc s _ _⟩⟩⟩

/-! ## A key event (R225, R226) -/

/-- What ends a wait changes: a register and the run state. -/
theorem sameExcept_regs_run (s : State) (v : Vector Byte 16) (rs : RunState) :
    SameExcept [.regs, .run] s { s with v := v, rs := rs } :=
  ⟨.inl (by decide), .inr rfl, .inr rfl, .inr ⟨rfl, rfl⟩, .inr rfl, .inr rfl, .inr rfl, .inl (by decide),
    .inr (State.readByte_congr rfl rfl), .inr rfl, rfl, rfl, rfl, rfl, rfl⟩

/-- A key event with a mask that is not empty ends a wait with the lowest key. -/
theorem State.keyEvent_ends_wait {s : State} {r : Reg} {mask : Word} (hwait : s.rs = .awaitingKey r)
    (hmask : mask ≠ 0) :
    ∃ k : Fin 16, mask.getLsbD k.val = true ∧ (∀ j < k.val, mask.getLsbD j = false) ∧
      s.keyEvent mask = { s.setReg r (truncByte k.val) with rs := .running } := by
  obtain ⟨k, hk, hset, hlowest⟩ := lowestKey_spec hmask
  exact ⟨k, hset, hlowest, State.keyEvent_awaiting hwait hk⟩

/-- A key index is its own low byte. -/
theorem truncByte_key (k : Fin 16) : (truncByte k.val).toNat = k.val := by
  rw [truncByte_toNat]
  omega

/-- The registers after a wait for `V[r]` has ended with key `k`. -/
theorem State.toNat_reg_after_wait (s : State) (r q : Reg) (k : Fin 16) :
    ({ s.setReg r (truncByte k.val) with rs := .running }.reg q).toNat = if q = r then k.val else (s.reg q).toNat := by
  refine (congrArg BitVec.toNat (s.reg_setReg r q _)).trans ?_
  rw [apply_ite BitVec.toNat, truncByte_key]

/-- Settles O44: the event that ends a wait writes the lowest key; in any other case the event has no effect. -/
theorem keyEventStoresTheLowestKey : Obligations.KeyEventStoresTheLowestKey := by
  refine fun s mask => ⟨fun r hwait hmask => ?_, fun h => congrArg Host.Outcome.next (State.keyEvent_elsewhere h)⟩
  obtain ⟨k, hset, hlowest, hevent⟩ := State.keyEvent_ends_wait hwait hmask
  refine ⟨k, _, hset, hlowest, congrArg Host.Outcome.next hevent, rfl, fun q => s.toNat_reg_after_wait r q k,
    sameExcept_regs_run s _ _⟩

/-! ## The wait (R224) -/

/-- An operation that does not end a wait: a step, a tick, or a key event with an empty mask. -/
def HostOp.KeepsWait (op : HostOp) : Prop := op = .tickTimers ∨ op = .keyEvent 0 ∨ ∃ keys rnd, op = .step keys rnd

/-- The state after a wait has gone on for some time: nothing has changed but the schedule and the timers, which went
down by the number of ticks. -/
def WaitedFor (s t : State) (schedule : List HostOp) (ticks : Nat) : Prop :=
  ∃ dt st, t = { s with schedule := schedule, dt := dt, st := st } ∧
    dt.toNat = s.dt.toNat - ticks ∧ st.toNat = s.st.toNat - ticks

/-- One operation of a wait. -/
theorem step_waits {s : State} {r : Reg} {op : HostOp} {rest : List HostOp} (hwait : s.rs = .awaitingKey r)
    (hsched : s.schedule = op :: rest) (hop : op.KeepsWait) :
    ∃ t, step s = .next t ∧ WaitedFor s t rest ([op].count .tickTimers) := by
  rw [step_cons hsched]
  obtain rfl | rfl | ⟨keys, rnd, rfl⟩ := hop
  · have hlive (report : FaultReport) : { s with schedule := rest }.rs ≠ .faulted report := by
      rw [hwait]; exact nofun
    exact ⟨_, congrArg Host.Outcome.next (State.tickTimers_live hlive), _, _, rfl, decrement_toNat s.dt,
      decrement_toNat s.st⟩
  · exact ⟨_, congrArg Host.Outcome.next (State.keyEvent_elsewhere (.inr rfl)), _, _, rfl, rfl, rfl⟩
  · exact ⟨_, State.stepOp_awaiting hwait, _, _, rfl, rfl, rfl⟩

theorem WaitedFor.trans {s t u : State} {l l' : List HostOp} {a b : Nat} (h : WaitedFor s t l a)
    (h' : WaitedFor t u l' b) : WaitedFor s u l' (a + b) := by
  obtain ⟨dt, st, rfl, hdt, hst⟩ := h
  obtain ⟨dt', st', rfl, hdt', hst'⟩ := h'
  refine ⟨dt', st', rfl, ?_, ?_⟩
  · rw [hdt', hdt, Nat.sub_sub]
  · rw [hst', hst, Nat.sub_sub]

/-- A step that answers `t` is the first step of every longer run. -/
theorem run_succ_of_step {s t : State} (h : step s = .next t) (m : Nat) :
    Host.Core.run Sys2Proof.core (m + 1) s = Host.Core.run Sys2Proof.core m t := by
  have hcore : Sys2Proof.core.step s = .next t := h
  simp only [Host.Core.run, hcore]

/-- A run through a wait arrives at the state that has waited, and goes on from there. -/
theorem run_waits {r : Reg} {tail : List HostOp} {ops : List HostOp} {s : State} (hwait : s.rs = .awaitingKey r)
    (hsched : s.schedule = ops ++ tail) (hops : ∀ op ∈ ops, HostOp.KeepsWait op) :
    ∃ t, (∀ m, Host.Core.run Sys2Proof.core (ops.length + m) s = Host.Core.run Sys2Proof.core m t) ∧
      WaitedFor s t tail (ops.count .tickTimers) := by
  induction ops generalizing s with
  | nil =>
    obtain rfl : s.schedule = tail := hsched
    exact ⟨s, fun m => by rw [List.length_nil, Nat.zero_add], s.dt, s.st, rfl, rfl, rfl⟩
  | cons op ops ih =>
    obtain ⟨hop, hops⟩ := List.forall_mem_cons.1 hops
    obtain ⟨t, hstep, hfirst⟩ := step_waits hwait hsched hop
    obtain ⟨u, hrun, hrest⟩ := ih (s := t) (by obtain ⟨dt, st, rfl, -⟩ := hfirst; exact hwait)
      (by obtain ⟨dt, st, rfl, -⟩ := hfirst; rfl) hops
    refine ⟨u, fun m => ?_, ?_⟩
    · rw [List.length_cons, Nat.add_right_comm, run_succ_of_step hstep, hrun]
    · have := hfirst.trans hrest
      rwa [← List.count_append] at this

/-- Settles O45: the run waits through `ops`; then the key event ends the wait. -/
theorem waitLastsUntilAKeyEvent : Obligations.WaitLastsUntilAKeyEvent := by
  intro s r ops mask rest hwait hsched hmask hops
  obtain ⟨t, hrun, dt, st, rfl, hdt, hst⟩ := run_waits hwait hsched hops
  refine ⟨⟨_, hrun 0, hdt, hst, sameExcept_timers { s with schedule := .keyEvent mask :: rest } dt st⟩, ?_⟩
  obtain ⟨k, hset, hlowest, hevent⟩ :=
    State.keyEvent_ends_wait (s := { s with schedule := rest, dt := dt, st := st }) hwait hmask
  have hstep := (step_cons (s := { s with schedule := .keyEvent mask :: rest, dt := dt, st := st }) rfl).trans
    (congrArg Host.Outcome.next hevent)
  refine ⟨k, _, (hrun 1).trans (run_succ_of_step hstep 0), hset, hlowest, rfl, ?_, rfl, rfl⟩
  rw [State.toNat_reg_after_wait, if_pos rfl]

end Sys2Proof.Machine

/-! PROOFS. Reset and the canonical form: every field after `reset` (R37, R38, R270 to R272), and canonical memories that
read alike. -/

namespace Sys2Proof.Machine

/-- Settles O51: memory outside the image reads as no cell lists it, and every other field is the one of `State.reset` or
is kept. -/
theorem resetGivesEveryFieldItsValue : Obligations.ResetGivesEveryFieldItsValue := by
  refine fun s rom => ⟨fun hfit => ?_, fun hlarge => State.resetWith_tooLarge hlarge⟩
  have hunlisted (a : Nat) (ha : a < 0x200 ∨ 0x200 + rom.length ≤ a) :
      Memory.read s.font (Memory.writeBytes s.font [] 0x200 rom) a = Memory.unlisted s.font a :=
    Memory.read_writeBytes_outside ha
  have hzero {a : Nat} (ha : 80 ≤ a) : Memory.unlisted s.font a = 0 := dif_neg (by omega)
  refine ⟨_, State.resetWith_fits hfit, fun r => Vector.getElem_replicate _, rfl, rfl, rfl,
    fun k => Vector.getElem_replicate _, rfl, rfl, fun _ _ => FrameBuffer.pixel_blank, rfl, fun a ha => ?_,
    fun a hfont ha => ?_, fun k hk => Memory.read_image s.font hfit hk, fun a ha => ?_, rfl, rfl, rfl, rfl, rfl, rfl⟩
  · exact (hunlisted a (by omega)).trans (dif_pos ha)
  · exact (hunlisted a (by omega)).trans (hzero hfont)
  · exact (hunlisted a (by omega)).trans (hzero (by omega))

/-! ## The canonical form -/

section
variable {font : Font} {c d : Host.Cell} {m n : Memory}

/-- The tail of a canonical memory is canonical. -/
theorem Memory.wf_tail (h : Memory.wf font (c :: m)) : Memory.wf font m :=
  ⟨(List.pairwise_cons.1 h.1).2, fun e he => h.2 e (List.mem_cons_of_mem c he)⟩

/-- The tail of a canonical memory reads as unlisted up to its first address. -/
theorem Memory.read_tail_of_le (h : Memory.wf font (c :: m)) {a : Nat} (ha : a ≤ c.1) :
    Memory.read font m a = Memory.unlisted font a :=
  Memory.read_of_lt fun e he => Nat.lt_of_le_of_lt ha ((List.pairwise_cons.1 h.1).1 e he)

/-- A canonical memory reads its first cell, which is not what its address reads as unlisted. -/
theorem Memory.read_head_ne_unlisted (h : Memory.wf font (c :: m)) :
    Memory.read font (c :: m) c.1 ≠ Memory.unlisted font c.1 := by
  rw [Memory.read, if_pos rfl]
  exact (h.2 c List.mem_cons_self).2

/-- A canonical memory that lists a cell does not read like one that begins above it. -/
theorem Memory.le_of_reads_alike (hm : Memory.wf font (c :: m)) (hn : Memory.wf font (d :: n))
    (h : ∀ a, Memory.read font (c :: m) a = Memory.read font (d :: n) a) : d.1 ≤ c.1 := by
  by_contra hlt
  refine Memory.read_head_ne_unlisted hm ((h c.1).trans ?_)
  rw [Memory.read, if_neg (by omega)]
  exact Memory.read_tail_of_le hn (by omega)

/-- Canonical memories that read alike begin with the same cell. -/
theorem Memory.head_eq_of_reads_alike (hm : Memory.wf font (c :: m)) (hn : Memory.wf font (d :: n))
    (h : ∀ a, Memory.read font (c :: m) a = Memory.read font (d :: n) a) : c = d := by
  have haddr : c.1 = d.1 := Nat.le_antisymm (Memory.le_of_reads_alike hn hm fun a => (h a).symm)
    (Memory.le_of_reads_alike hm hn h)
  have hbyte := h c.1
  rw [Memory.read, Memory.read, if_pos rfl, if_pos haddr.symm] at hbyte
  exact Prod.ext haddr hbyte

/-- Below the first cell and at it both tails read as unlisted, and above it they read as the whole memories do. -/
theorem Memory.tails_read_alike (hm : Memory.wf font (c :: m)) (hn : Memory.wf font (c :: n))
    (h : ∀ a, Memory.read font (c :: m) a = Memory.read font (c :: n) a) (a : Nat) :
    Memory.read font m a = Memory.read font n a := by
  by_cases ha : a ≤ c.1
  · rw [Memory.read_tail_of_le hm ha, Memory.read_tail_of_le hn ha]
  · have := h a
    rwa [Memory.read, Memory.read, if_neg (by omega), if_neg (by omega)] at this

end

/-- Settles O55, by induction on the first memory: two canonical lists that read alike have the same first cell, and their
tails read alike. -/
theorem canonicalMemoriesThatReadAlikeAreEqual : Obligations.CanonicalMemoriesThatReadAlikeAreEqual := by
  intro font m
  induction m with
  | nil =>
    intro n _ hn h
    cases n with
    | nil => rfl
    | cons d n => exact absurd (h d.1).symm (Memory.read_head_ne_unlisted hn)
  | cons c m ih =>
    intro n hm hn h
    cases n with
    | nil => exact absurd (h c.1) (Memory.read_head_ne_unlisted hm)
    | cons d n =>
      obtain rfl := Memory.head_eq_of_reads_alike hm hn h
      rw [ih n (Memory.wf_tail hm) (Memory.wf_tail hn) (Memory.tails_read_alike hm hn h)]

end Sys2Proof.Machine
